-- ==== Sys2Proof/Word.lean ====
section
/-! DEFINITION. The words of SFX-CRCDF (spec/00_scope.md rule R10): unsigned bit vectors of the three widths the
spec uses. Lengths and the length field plus 7 are natural numbers and stay `Nat` (rules R10 and R133). -/

namespace Sys2Proof

/-- A byte, 0 to 255, bit 7 the most significant (rule R10). -/
abbrev Byte := BitVec 8

/-- A half-word, 0 to 65535, bit 15 the most significant (rule R10): the CRC register and the two half-word fields. -/
abbrev Half := BitVec 16

/-- A command word, 11 bits (rule R71). -/
abbrev CmdWord := BitVec 11

end Sys2Proof
end

