-- ==== Sys2Proof/Config.lean ====
section
/-! DEFINITION. The constants of the block (spec/00_scope.md rules R7 and R8). They are no state: they are fixed before
reset and no operation changes them (spec/10_state.md rules R26 and R29). What rule R8 lets a model configure is a
record that the shared operations take as an argument; `exec` runs them at `Config.default`, the source's values. The
spec leaves no value free, so there is no opaque constant here. -/

namespace Sys2Proof

/-- The configurable constants of rule R8: the three special bytes and the overflow threshold `MAX_ACC`. -/
structure Config where
  /-- `START`, the frame start marker. -/
  startByte : Byte
  /-- `END`, the frame end marker. -/
  endByte : Byte
  /-- `ESCAPE`, the escape byte. -/
  escByte : Byte
  /-- `MAX_ACC`, the overflow threshold of the accumulator in bytes. -/
  maxAcc : Nat
deriving DecidableEq, Repr

namespace Config

/-- The source's values (rule R7). The markers are not those of HDLC: 0x7D is END and 0x7C is ESCAPE. -/
def default : Config where
  startByte := 0x7E
  endByte := 0x7D
  escByte := 0x7C
  maxAcc := 1024

/-- A special byte is one of `START`, `END`, `ESCAPE` (rule R14). -/
def isSpecial (cfg : Config) (b : Byte) : Bool :=
  b == cfg.startByte || b == cfg.endByte || b == cfg.escByte

/-- `ESC_XOR`, the value XORed into an escaped byte (rule R7). -/
def escXor : Byte := 0x20

/-- `MIN_FRAME`, the least size of a complete frame and the fixed overhead added to the length field (rule R7). -/
abbrev minFrame : Nat := 7

/-- `CRC_POLY`, the generator polynomial with the x^16 term implied (rule R7). -/
def crcPoly : Half := 0x1021

/-- `CRC_INIT`, the register value before the first byte (rule R7). -/
def crcInit : Half := 0xFFFF

/-- `CRC_XOROUT` (rule R7), "no final inversion": rules R91 and R94 hand the register out as it stands, so no
operation applies it; `Laws/Crc.lean` proves that applying it would change nothing. -/
def crcXorOut : Half := 0x0000

end Config

end Sys2Proof
end

