-- ==== Sys2Proof/Syntax.lean ====
section
/-! DEFINITION. The operations of the block (spec/30_encoding.md rules R71 to R73): one constructor for each row of
spec/opcode_table.json, and the two fields of the one command format `C`. -/

namespace Sys2Proof

/-- The five operations of rule R72. The only operand is the byte `b` of `CRC.BYTE` and `DF.PUSH` (rule R73). -/
inductive Instr where
  /-- `CRC.INIT` (rule R92). -/
  | crcInit
  /-- `CRC.BYTE b` (rule R93). -/
  | crcByte (b : Byte)
  /-- `CRC.READ` (rule R94). -/
  | crcRead
  /-- `DF.PUSH b` (rule R110). -/
  | dfPush (b : Byte)
  /-- `DF.RESET` (rule R119). -/
  | dfReset
deriving DecidableEq, Repr

/-- The fields of format `C` (rule R71): `op` in bits 10:8, `data` in bits 7:0. -/
structure CmdFields where
  op : BitVec 3
  data : Byte
deriving DecidableEq, Repr

/-- The mnemonic of rule R72. -/
def Instr.mnemonic : Instr → String
  | .crcInit => "CRC.INIT"
  | .crcByte _ => "CRC.BYTE"
  | .crcRead => "CRC.READ"
  | .dfPush _ => "DF.PUSH"
  | .dfReset => "DF.RESET"

end Sys2Proof
end

