-- ==== Sys2Proof/WellFormed.lean ====
section
/-! DEFINITION. What is well formed: a configuration (spec/00_scope.md rule R8), the fields of a command word
(spec/30_encoding.md rules R71 and R74) and an operation. -/

namespace Sys2Proof

/-- The constraints of rule R8: the special bytes are pairwise distinct and `MAX_ACC` is at least 1. -/
def Config.wf (cfg : Config) : Bool :=
  cfg.startByte != cfg.endByte && cfg.startByte != cfg.escByte && cfg.endByte != cfg.escByte
    && decide (1 ≤ cfg.maxAcc)

/-- The operation code is one of the five of rule R72; 0b101, 0b110 and 0b111 are reserved (rule R74). -/
def CmdFields.opAssigned (f : CmdFields) : Bool := decide (f.op.toNat ≤ 4)

/-- The operations that take a byte operand: `CRC.BYTE` and `DF.PUSH` (rule R72). -/
def CmdFields.takesData (f : CmdFields) : Bool := f.op == 0b001 || f.op == 0b011

/-- Where there is no operand the data bits must be zero (rules R71 and R74). -/
def CmdFields.dataAllowed (f : CmdFields) : Bool := f.takesData || f.data == 0

/-- The fields name an operation: they are not illegal in the sense of rule R74. -/
def CmdFields.wf (f : CmdFields) : Bool := f.opAssigned && f.dataAllowed

/-- Every term of `Instr` is well formed: the operand's type already bounds it, and every byte value is legal in every
state (rules R73, R93 and R110). -/
def Instr.wf : Instr → Bool
  | .crcInit => true
  | .crcByte _ => true
  | .crcRead => true
  | .dfPush _ => true
  | .dfReset => true

end Sys2Proof
end

