-- ==== Sys2Proof/Decode.lean ====
section
/-! DEFINITION. The command encoding (spec/30_encoding.md rules R71 to R75 and R81): the decoder, total on 11-bit
words and on any number presented as one, rejecting by name; the encoder; and the opcode table with its match and mask
values. -/

namespace Sys2Proof

/-- Why a word is no operation (rule R74). -/
inductive Illegal where
  /-- `op` is 0b101, 0b110 or 0b111. -/
  | reservedOp (op : BitVec 3)
  /-- `op` takes no operand and `data` is not 0x00. -/
  | nonzeroData (op : BitVec 3) (data : Byte)
  /-- The number presented is no 11-bit command word (rule R71: there are no other lengths). -/
  | notElevenBits
deriving DecidableEq, Repr

/-- What decoding answers: one of the five operations, or illegal (rule R74, "the decoder is total"). -/
inductive Decoded where
  | instr (i : Instr)
  | illegal (why : Illegal)
deriving DecidableEq, Repr

/-- The operation of a decoded word, if it is one. -/
def Decoded.instr? : Decoded → Option Instr
  | .instr i => some i
  | .illegal _ => none

/-- Bits 10:8 and 7:0 of a command word (rule R71). -/
def fieldsOfWord (w : CmdWord) : CmdFields where
  op := w.extractLsb' 8 3
  data := w.extractLsb' 0 8

/-- The command word of two fields (rule R71). -/
def wordOfFields (f : CmdFields) : CmdWord := f.op ++ f.data

/-- An operation without operand: legal only when the data bits are zero (rules R71 and R74). -/
def decodePlain (f : CmdFields) (i : Instr) : Decoded :=
  if f.data = 0 then .instr i else .illegal (.nonzeroData f.op f.data)

/-- The operation the fields name (rule R72); reserved operation codes are rejected (rule R74). -/
def decodeFields (f : CmdFields) : Decoded :=
  match f.op.toNat with
  | 0 => decodePlain f .crcInit
  | 1 => .instr (.crcByte f.data)
  | 2 => decodePlain f .crcRead
  | 3 => .instr (.dfPush f.data)
  | 4 => decodePlain f .dfReset
  | _ => .illegal (.reservedOp f.op)

/-- The decoder of command words (rules R72 to R74). -/
def decode (w : CmdWord) : Decoded := decodeFields (fieldsOfWord w)

/-- The decoder on any number: a number that needs more than 11 bits is no command word (rule R71). -/
def decodeNat (w : Nat) : Decoded :=
  if w < 2 ^ 11 then decode (BitVec.ofNat 11 w) else .illegal .notElevenBits

/-- The fields of an operation (rule R72). -/
def encodeFields : Instr → CmdFields
  | .crcInit => ⟨0b000, 0x00⟩
  | .crcByte b => ⟨0b001, b⟩
  | .crcRead => ⟨0b010, 0x00⟩
  | .dfPush b => ⟨0b011, b⟩
  | .dfReset => ⟨0b100, 0x00⟩

/-- The command word of an operation (rules R71 and R72). -/
def encode (i : Instr) : CmdWord := wordOfFields (encodeFields i)

/-- A row of the operation table of rule R72. -/
structure OpcodeRow where
  mnemonic : String
  matchBits : CmdWord
  maskBits : CmdWord
deriving DecidableEq, Repr

/-- A command word `w` selects a row when `w and mask = match` (rule R72). -/
def OpcodeRow.selects (r : OpcodeRow) (w : CmdWord) : Bool := (w &&& r.maskBits) == r.matchBits

/-- The operation table (rules R72 and R81). -/
def opcodeTable : List OpcodeRow :=
  [⟨"CRC.INIT", 0x000, 0x7FF⟩, ⟨"CRC.BYTE", 0x100, 0x700⟩, ⟨"CRC.READ", 0x200, 0x7FF⟩,
   ⟨"DF.PUSH", 0x300, 0x700⟩, ⟨"DF.RESET", 0x400, 0x7FF⟩]

/-- The 11-bit word that the number `w` presents to the block. A number of more than 11 bits is no command word: what it
presents is an illegal one, so that it cannot fall through to the operation in its low bits. -/
def presentedWord (w : Nat) : CmdWord := if w < 2 ^ 11 then BitVec.ofNat 11 w else 0x7FF

/-- The operation this decoder reads from an instruction of `nbits` bits whose bits are `w`, numbered as
spec/opcode_table.json numbers them: bit 0 of `w` is bit 0 of the command word. -/
def decodeTableWord (nbits w : Nat) : Option Instr := (decodeNat (w % 2 ^ nbits)).instr?

end Sys2Proof
end

