-- ==== Sys2Proof/Machine/State.lean ====
section
/-! DEFINITION. The state of the block: the triple `(crc, st, acc)` of spec/10_state.md rule R20, and beside it the two
sides of the one caller that a step function needs and that are no state of the block (rule R29): the command words
still to come and the responses given so far. -/

namespace Sys2Proof.Machine

/-- The receiver state `st` (rule R22). Escape-pending is the third state, not a flag beside the second (rule R25). -/
inductive RxState where
  /-- `Idle`: await START. -/
  | idle
  /-- `InFrame`: accumulating. -/
  | inFrame
  /-- `EscapePending`: the next raw byte is XORed with 0x20 before it is appended. -/
  | escapePending
deriving DecidableEq, Repr

/-- The accumulator `acc` (rules R23 and R40): the byte at address `i` is the list's element `i`, and an address at or
above the length holds nothing (rule R43: "a model represents `acc` as a list and has no notion of stale cells"). -/
abbrev Memory := List Byte

/-- The five reasons of an Invalid result (spec/30_encoding.md rule R77). -/
inductive Reason where
  /-- "too small". -/
  | tooSmall
  /-- "invalid frame markers". -/
  | invalidMarkers
  /-- "length mismatch". -/
  | lengthMismatch
  /-- "CRC mismatch". -/
  | crcMismatch
  /-- "buffer overflow". -/
  | bufferOverflow
deriving DecidableEq, Repr

/-- A Deframe Result, what `VALIDATE` returns (rules R14 and R130): exactly one of the two. -/
inductive Result where
  | valid (id : Byte) (payload : List Byte)
  | invalid (reason : Reason)
deriving DecidableEq, Repr

/-- A response (spec/30_encoding.md rule R76): five kinds. -/
inductive Response where
  /-- `None`. -/
  | none
  /-- `Crc(v)`. -/
  | crc (v : Half)
  /-- `Valid(id, payload)`. -/
  | valid (id : Byte) (payload : List Byte)
  /-- `Invalid(reason)`. -/
  | invalid (reason : Reason)
  /-- `Illegal`, the answer to an illegal command word (rule R158). -/
  | illegal
deriving DecidableEq, Repr

/-- The reasons the machine stops with a fault: none. Rule R150: "Nothing in the core is fatal"; rule R121: the block
never gets stuck; an Invalid result is an ordinary response of a successful step. Safe: with no constructor no step can
stop. -/
inductive Fault where
deriving DecidableEq, Repr

/-- The reasons a step is refused. No arm of `exec` refuses. -/
inductive Refusal where
  /-- Raised by an arm of `exec` that has no meaning yet; no arm is in that case. Safe: a refused step proves nothing. -/
  | notModelled (mnemonic : String)
deriving DecidableEq, Repr

/-- The state. `crc`, `st` and `acc` are the block's (rule R20); `pending` and `responses` are the caller's, held here
because a step has no other input or output (rules R13 and R29). -/
structure State where
  /-- The CRC register (rule R21), 16 bits. -/
  crc : Half
  /-- The receiver state (rule R22). -/
  st : RxState
  /-- The accumulator (rule R23), lowest address first; its length `n` is the length counter. -/
  acc : Memory
  /-- The model's own: the command words the caller has yet to present, next one first. -/
  pending : List CmdWord
  /-- The model's own: the responses given so far, oldest first. No operation reads them. -/
  responses : List Response
deriving DecidableEq, Repr

/-- The block right after reset (spec/70_reset_and_hazards.md rule R175; spec/10_state.md rule R30), with no command
presented and no response given. -/
def State.reset : State where
  crc := Config.crcInit
  st := .idle
  acc := []
  pending := []
  responses := []

/-- The block's own state, the triple of rule R20. -/
def State.block (s : State) : Half × RxState × Memory := (s.crc, s.st, s.acc)

end Sys2Proof.Machine
end

