-- ==== Sys2Proof/Machine/Ops.lean ====
section
/-! DEFINITION. The named operations every meaning is written over: the accumulator (spec/20_memory.md), responses, the
return to Idle with a result (spec/60_exceptions.md rule R155, what this block has in place of taking an exception),
reset, and the presenting of a command word. -/

namespace Sys2Proof.Machine

/-- The byte at address `a` of the accumulator; none at or above the length (rule R43). -/
def accByte? (m : Memory) (a : Nat) : Option Byte := m[a]?

/-- `MemRead(i, 1)`, `acc[i]`: defined only for `i < len(acc)` (rules R12 and R43), so the read carries that proof. -/
def accRead (m : Memory) (i : Nat) (h : i < m.length) : Byte := m[i]

/-- `MemRead(i, 2)`, the little-endian half-word `acc[i] + 256 * acc[i+1]` (rule R44): the byte at the lower index is
the less significant. Any index will do, there is no alignment (rule R47). -/
def accHalf (m : Memory) (i : Nat) (h : i + 1 < m.length) : Half :=
  accRead m (i + 1) h ++ accRead m i (Nat.lt_of_succ_lt h)

/-- `s[i..j]`: the elements at indices `i` to `j` inclusive, empty when `j < i` (spec/00_scope.md rule R11). -/
def slice (m : List Byte) (i j : Nat) : List Byte := (m.drop i).take (j + 1 - i)

/-- The address the next byte is stored at: `len(acc)` (rule R12). -/
def accStoreAddr (m : Memory) : Nat := m.length

/-- `AccAppend(v)` (rule R41): a write at `accStoreAddr`; the block never overwrites a byte. -/
def accAppend (m : Memory) (v : Byte) : Memory := m ++ [v]

/-- `AccClear()` (rule R42). -/
def accClear : Memory := []

/-- The accumulator fits its memory of `MAX_ACC + 1` cells (rules R27 and R41). A list of bytes has no second form, so
this bound is all the well-formedness there is. -/
def Memory.wf (cfg : Config) (m : Memory) : Bool := decide (m.length ≤ cfg.maxAcc + 1)

/-- The accumulator as address and byte pairs, addresses rising from `base`. -/
def cellsFrom : Nat → Memory → List Host.Cell
  | _, [] => []
  | base, b :: m => (base, b) :: cellsFrom (base + 1) m

/-- The accumulator as address and byte pairs (rule R40: byte-addressed by a zero-based index). -/
def Memory.cells (m : Memory) : List Host.Cell := cellsFrom 0 m

/-- `emit r`: the response of the current operation is `r` (rule R12); it is stored nowhere in the block (rule R29) and
goes to the caller's side. -/
def respond (r : Response) (s : State) : State := { s with responses := s.responses ++ [r] }

/-- A Deframe Result as a response (rule R76). -/
def Result.response : Result → Response
  | .valid id payload => .valid id payload
  | .invalid reason => .invalid reason

/-- The end of a frame, good or bad (rule R155): `acc <- []`, `st <- Idle`, and the result is the response; nothing is
saved and nothing else changes. -/
def finishFrame (r : Result) (s : State) : State :=
  respond r.response { s with acc := accClear, st := .idle }

/-- The illegal command word's whole effect (rules R74 and R158): no state changes, the response is `Illegal`. -/
def respondIllegal (s : State) : State := respond .illegal s

/-- Reset of the block (rule R175): it gives no response; what the caller holds is not the block's to reset. -/
def resetBlock (s : State) : State := { s with crc := Config.crcInit, st := .idle, acc := accClear }

/-- The caller presents its next command word (rule R13); none when it has no more. -/
def presentCommand (s : State) : Option (CmdWord × State) :=
  match s.pending with
  | [] => none
  | w :: rest => some (w, { s with pending := rest })

/-- Between operations the block holds its state (rules R13, R75 and R162). -/
def holdState (s : State) : State := s

end Sys2Proof.Machine
end

