-- ==== Sys2Proof/Machine/Flags.lean ====
section
/-! DEFINITION. The one flag-like condition and the one computed condition (spec/10_state.md rule R25): escape-pending is
a value of `st`; the overflow condition is not stored, it is computed from the accumulator's length at each push. -/

namespace Sys2Proof.Machine

/-- The escape-pending condition: set exactly when `st = EscapePending` (rule R25). -/
def escapePending (s : State) : Bool := s.st == .escapePending

/-- The overflow guard's condition (spec/41_deframer.md rule R113): strictly more than `MAX_ACC` bytes stand in the
accumulator when the byte arrives. The reading is the spec's decision D11. -/
def overflows (cfg : Config) (s : State) : Bool := decide (cfg.maxAcc < s.acc.length)

end Sys2Proof.Machine
end

