-- ==== Sys2Proof/Machine/Crc.lean ====
section
/-! DEFINITION. The CRC unit (spec/40_crc16.md): the update of rule R90, the function of rule R91 and the three
operations of rules R92 to R94. The bit-level algorithm is the spec's rule R90, which the spec itself supplies from
general knowledge and ties to the source by one check value (spec/93_implementation_defined.md G1). -/

namespace Sys2Proof.Machine

/-- One step of the loop of rule R90: bit 15 is tested and then shifted out. -/
def crcShift (r : Half) : Half :=
  if r.msb then (r <<< 1) ^^^ Config.crcPoly else r <<< 1

/-- `k` steps of the loop of rule R90. -/
def crcShifts : Nat → Half → Half
  | 0, r => r
  | k + 1, r => crcShifts k (crcShift r)

/-- `crc16_update(c, b)` (rule R90): the byte enters in bits 15:8, then eight steps. -/
def crc16Update (c : Half) (b : Byte) : Half := crcShifts 8 (c ^^^ (b.zeroExtend 16 <<< 8))

/-- The register after the bytes, from any starting value (rule R95). -/
def crcFold (c : Half) (bytes : List Byte) : Half := bytes.foldl crc16Update c

/-- `crc16(bytes)` (rule R91): a pure function, not the register. -/
def crc16 (bytes : List Byte) : Half := crcFold Config.crcInit bytes

/-- `CRC.INIT` (rule R92). -/
def execCrcInit (s : State) : Host.Outcome State Fault Refusal :=
  .next (respond .none { s with crc := Config.crcInit })

/-- `CRC.BYTE b` (rule R93). -/
def execCrcByte (b : Byte) (s : State) : Host.Outcome State Fault Refusal :=
  .next (respond .none { s with crc := crc16Update s.crc b })

/-- `CRC.READ` (rule R94): reading does not change the register. -/
def execCrcRead (s : State) : Host.Outcome State Fault Refusal :=
  .next (respond (.crc s.crc) s)

end Sys2Proof.Machine
end

