-- ==== Sys2Proof/Machine/Operands.lean ====
section
/-! DEFINITION. Operand assembly from the accumulator image (spec/30_encoding.md rules R67 and R68). Every index is in
range once the size check has passed (spec/42_validate.md rule R131), so the fields take that fact as a proof. The one
operand of a command, `b` = bits 7:0 (rule R73), is taken apart in Decode.lean. -/

namespace Sys2Proof.Machine

/-- The message id, `image[1]` (rule R69). -/
def messageId (image : Memory) (h : Config.minFrame ≤ image.length) : Byte :=
  accRead image 1 (Nat.lt_of_lt_of_le (by decide) h)

/-- `len_field = image[2] + 256 * image[3]`, a natural number before 7 is added: no wrap (rules R68 and R133). -/
def lenField (image : Memory) (h : Config.minFrame ≤ image.length) : Nat :=
  (accHalf image 2 (Nat.lt_of_lt_of_le (by decide) h)).toNat

/-- `chk_field = image[n-3] + 256 * image[n-2]` (rule R68). -/
def chkField (image : Memory) (h : Config.minFrame ≤ image.length) : Half :=
  accHalf image (image.length - 3) (by unfold Config.minFrame at h; omega)

/-- `crc_domain = image[1..n-4]`: message id, length bytes and payload (rules R68 and R134). -/
def crcDomain (image : Memory) : List Byte := slice image 1 (image.length - 4)

/-- The payload, `image[4..n-4]`, taken as it stands: no second unescaping (rule R135). -/
def payloadField (image : Memory) : List Byte := slice image 4 (image.length - 4)

end Sys2Proof.Machine
end

