-- ==== Sys2Proof/Machine/Validate.lean ====
section
/-! DEFINITION. The validation pass `VALIDATE` (spec/42_validate.md rules R130 to R135), a pure function of the
accumulator image: it reads and writes no state, the register `crc` in particular (spec/10_state.md rule R32). -/

namespace Sys2Proof.Machine

/-- Step 2: the image begins with START and ends with END (rule R132). -/
def markersOk (cfg : Config) (image : Memory) (h : Config.minFrame ≤ image.length) : Bool :=
  accRead image 0 (Nat.lt_of_lt_of_le (by decide) h) == cfg.startByte &&
    accRead image (image.length - 1) (by unfold Config.minFrame at h; omega) == cfg.endByte

/-- `VALIDATE(image)` (rule R130): the first step that fails decides the result (rule R136). -/
def validate (cfg : Config) (image : Memory) : Result :=
  if small : image.length < Config.minFrame then .invalid .tooSmall
  else
    let h := Nat.le_of_not_lt small
    if markersOk cfg image h = false then .invalid .invalidMarkers
    else if image.length ≠ lenField image h + Config.minFrame then .invalid .lengthMismatch
    else if crc16 (crcDomain image) ≠ chkField image h then .invalid .crcMismatch
    else .valid (messageId image h) (payloadField image)

end Sys2Proof.Machine
end

