-- ==== Sys2Proof/Machine/Deframer.lean ====
section
/-! DEFINITION. The deframer unit (spec/41_deframer.md): `DF.PUSH` (rule R110, cases R111 to R117) and `DF.RESET` (rule
R119). The case split is on `st`, then on the overflow guard, then on the byte. -/

namespace Sys2Proof.Machine

/-- A byte in Idle: START begins a frame (rule R111), any other byte is dropped (rule R112). -/
def pushIdle (cfg : Config) (b : Byte) (s : State) : State :=
  if b = cfg.startByte then
    respond .none { s with acc := accAppend accClear cfg.startByte, st := .inFrame }
  else respond .none s

/-- A byte after ESCAPE: stored XOR 0x20, whatever it is (rule R114). -/
def pushEscaped (b : Byte) (s : State) : State :=
  respond .none { s with acc := accAppend s.acc (b ^^^ Config.escXor), st := .inFrame }

/-- A byte in a frame with no escape pending and the guard not fired: ESCAPE (rule R115), END (rule R116), or any other
byte, START among them, stored verbatim (rule R117). -/
def pushPlain (cfg : Config) (b : Byte) (s : State) : State :=
  if b = cfg.escByte then respond .none { s with st := .escapePending }
  else if b = cfg.endByte then finishFrame (validate cfg (accAppend s.acc cfg.endByte)) s
  else respond .none { s with acc := accAppend s.acc b }

/-- `DF.PUSH b` (rule R110): the overflow guard comes before every other in-frame rule (rule R113). -/
def pushByte (cfg : Config) (b : Byte) (s : State) : State :=
  if s.st = .idle then pushIdle cfg b s
  else if overflows cfg s then finishFrame (.invalid .bufferOverflow) s
  else if escapePending s then pushEscaped b s
  else pushPlain cfg b s

/-- `DF.PUSH b` at the source's constants (rules R7 and R110). -/
def execDfPush (b : Byte) (s : State) : Host.Outcome State Fault Refusal :=
  .next (pushByte Config.default b s)

/-- `DF.RESET` (rule R119): no result for the abandoned frame, `crc` untouched. -/
def execDfReset (s : State) : Host.Outcome State Fault Refusal :=
  .next (respond .none { s with acc := accClear, st := .idle })

end Sys2Proof.Machine
end

