-- ==== Sys2Proof/Machine/Step.lean ====
section
/-! DEFINITION. One step: the caller presents its next command word and the block runs it (spec/00_scope.md rule R13).
The block has no program counter and fetches nothing (spec/10_state.md rule R24). -/

namespace Sys2Proof.Machine

/-- One operation is one atomic step (rule R13). With no command the block holds its state (rules R75 and R162); an
illegal word changes nothing and is answered `Illegal` (rules R74 and R158). -/
def step (s : State) : Host.Outcome State Fault Refusal :=
  match presentCommand s with
  | none => .next (holdState s)
  | some (w, t) =>
    match decode w with
    | .instr i => exec i t
    | .illegal _ => .next (respondIllegal t)

/-- The state with the command word of number `w` presented next, before everything the caller still has to present:
this stands for the caller's issuing of it (rule R13). A command word has 11 bits, whatever `nbits` says above them. -/
def State.withFetchWord (s : State) (nbits w : Nat) : State :=
  { s with pending := presentedWord (w % 2 ^ nbits) :: s.pending }

end Sys2Proof.Machine
end

