-- ==== Sys2Proof/Machine/Pseudo.lean ====
section
/-! DEFINITION. Assembler syntax and pseudo-operations (spec/30_encoding.md rules R79 and R80). No behaviour depends on
them. -/

namespace Sys2Proof.Machine

/-- `CRC.BUF b1 ... bk` (rule R80). -/
def crcBuf (bytes : List Byte) : List Instr := .crcInit :: bytes.map .crcByte ++ [.crcRead]

/-- `DF.FEED b1 ... bk` (rule R80). -/
def dfFeed (bytes : List Byte) : List Instr := bytes.map .dfPush

/-- `DF.FEED b * m` (rule R80). -/
def dfFeedTimes (b : Byte) (m : Nat) : List Instr := dfFeed (List.replicate m b)

/-- The ASCII code of a character, if it has one. -/
def asciiCode (c : Char) : Option Byte := if c.toNat < 128 then some (BitVec.ofNat 8 c.toNat) else none

/-- `DF.FEED "text"` (rule R80): defined for ASCII text. -/
def dfFeedText (text : String) : Option (List Instr) := (text.toList.mapM asciiCode).map dfFeed

/-- A hexadecimal digit, written in capitals. -/
def hexDigit (n : Nat) : Char :=
  if n < 10 then Char.ofNat ('0'.toNat + n) else Char.ofNat ('A'.toNat + (n - 10))

/-- A byte operand: `0x` and two hexadecimal digits (rule R79). -/
def hexByte (b : Byte) : List Char := ['0', 'x', hexDigit (b.toNat / 16), hexDigit (b.toNat % 16)]

/-- The byte operand of an operation, written after a space (rule R79). -/
def operandText : Instr → List Char
  | .crcInit => []
  | .crcByte b => ' ' :: hexByte b
  | .crcRead => []
  | .dfPush b => ' ' :: hexByte b
  | .dfReset => []

/-- The mnemonic as characters, the ones of `Instr.mnemonic`. -/
def mnemonicChars : Instr → List Char
  | .crcInit => ['C', 'R', 'C', '.', 'I', 'N', 'I', 'T']
  | .crcByte _ => ['C', 'R', 'C', '.', 'B', 'Y', 'T', 'E']
  | .crcRead => ['C', 'R', 'C', '.', 'R', 'E', 'A', 'D']
  | .dfPush _ => ['D', 'F', '.', 'P', 'U', 'S', 'H']
  | .dfReset => ['D', 'F', '.', 'R', 'E', 'S', 'E', 'T']

/-- An operation as a line of assembler text (rule R79). -/
def asmLine (i : Instr) : List Char := mnemonicChars i ++ operandText i

/-- The value a character has as a hexadecimal digit: the number below 16 that `hexDigit` writes so, in either case. -/
def digitValue (c : Char) : Option Nat := (List.range 16).find? fun n => hexDigit n == c.toUpper

/-- A byte operand read back (rule R79). -/
def readHexByte : List Char → Option Byte
  | ['0', 'x', hi, lo] =>
    match digitValue hi, digitValue lo with
    | some h, some l => some (BitVec.ofNat 8 (16 * h + l))
    | _, _ => none
  | _ => none

/-- The text before a comment: a `;` starts one (rule R79). -/
def beforeComment : List Char → List Char
  | [] => []
  | c :: cs => if c = ';' then [] else c :: beforeComment cs

/-- Words of a line, split at spaces; the first argument holds the word being read. -/
def wordsFrom : List Char → List Char → List (List Char)
  | [], [] => []
  | w, [] => [w]
  | w, c :: cs =>
    if c = ' ' then (if w = [] then wordsFrom [] cs else w :: wordsFrom [] cs)
    else wordsFrom (w ++ [c]) cs

/-- The operation a mnemonic without operand names. -/
def plainNamed (m : List Char) : Option Instr :=
  if m = mnemonicChars .crcInit then some .crcInit
  else if m = mnemonicChars .crcRead then some .crcRead
  else if m = mnemonicChars .dfReset then some .dfReset
  else none

/-- The operation a mnemonic with a byte operand names. -/
def byteNamed (m : List Char) (b : Byte) : Option Instr :=
  if m = mnemonicChars (.crcByte b) then some (.crcByte b)
  else if m = mnemonicChars (.dfPush b) then some (.dfPush b)
  else none

/-- A line of assembler text read back: one operation a line (rule R79). -/
def readLine (line : List Char) : Option Instr :=
  match wordsFrom [] (beforeComment line) with
  | [m] => plainNamed m
  | [m, operand] => (readHexByte operand).bind (byteNamed m)
  | _ => none

end Sys2Proof.Machine
end

