-- ==== Sys2Proof/Machine/Response.lean ====
section
/-! DEFINITION. The names and numbers of results: the normative reason strings and their codes (spec/30_encoding.md rule
R77), the suggested response word (rule R78) and the suggested encoding of `st` (spec/10_state.md rule R22). No meaning
depends on them. -/

namespace Sys2Proof.Machine

/-- The reason string, exact (rule R77). -/
def Reason.text : Reason → String
  | .tooSmall => "too small"
  | .invalidMarkers => "invalid frame markers"
  | .lengthMismatch => "length mismatch"
  | .crcMismatch => "CRC mismatch"
  | .bufferOverflow => "buffer overflow"

/-- The name in source §7 (rule R77). -/
def Reason.sourceName : Reason → String
  | .tooSmall => "TooSmall"
  | .invalidMarkers => "InvalidMarkers"
  | .lengthMismatch => "LengthMismatch"
  | .crcMismatch => "CrcMismatch"
  | .bufferOverflow => "Stream overflow"

/-- The reason code (rules R77 and R151); 0, 6 and 7 are never produced. -/
def Reason.code : Reason → BitVec 3
  | .tooSmall => 1
  | .invalidMarkers => 2
  | .lengthMismatch => 3
  | .crcMismatch => 4
  | .bufferOverflow => 5

/-- The kind code of a response (rule R78). -/
def Response.kindCode : Response → BitVec 3
  | .none => 0
  | .crc _ => 1
  | .valid _ _ => 2
  | .invalid _ => 3
  | .illegal => 4

/-- A field of the suggested response word: its width in bits and its value. -/
structure WordField where
  width : Nat
  value : Nat
deriving DecidableEq, Repr

/-- A byte as a field. -/
def byteField (b : Byte) : WordField := ⟨8, b.toNat⟩

/-- The fields after the kind (rule R78); the payload length is an 11-bit field. -/
def Response.bodyFields : Response → List WordField
  | .none => []
  | .crc v => [⟨16, v.toNat⟩]
  | .valid id payload => byteField id :: ⟨11, payload.length⟩ :: payload.map byteField
  | .invalid reason => [⟨3, reason.code.toNat⟩]
  | .illegal => []

/-- The suggested response word as its fields in order (rule R78). -/
def Response.fields (r : Response) : List WordField := ⟨3, r.kindCode.toNat⟩ :: r.bodyFields

/-- The suggested encoding of `st` (rule R22): bit 0 "in a frame", bit 1 "escape pending"; 0b10 is unused. -/
def RxState.code : RxState → BitVec 2
  | .idle => 0b00
  | .inFrame => 0b01
  | .escapePending => 0b11

end Sys2Proof.Machine
end

