-- ==== Sys2Proof/Machine/Wire.lean ====
section
/-! DEFINITION. The wire format as the language the deframer reads (spec/30_encoding.md rules R60 to R66). These are
reference functions, no part of the block: they say which byte streams a sender produces, and claims about the deframer
are stated with them. -/

namespace Sys2Proof.Machine

/-- The wire bytes of one payload byte (rule R62). -/
def stuffByte (cfg : Config) (b : Byte) : List Byte :=
  if cfg.isSpecial b then [cfg.escByte, b ^^^ Config.escXor] else [b]

/-- `stuff` (rule R62). -/
def stuff (cfg : Config) (bytes : List Byte) : List Byte := bytes.flatMap (stuffByte cfg)

/-- Unstuffing as the block does it (rules R63 and R122), from an escape pending or not: the bytes stored, and whether an
escape is pending at the end. The byte after ESCAPE is not checked. -/
def unstuffFrom (cfg : Config) : Bool → List Byte → List Byte × Bool
  | pending, [] => ([], pending)
  | true, x :: w => ((x ^^^ Config.escXor) :: (unstuffFrom cfg false w).1, (unstuffFrom cfg false w).2)
  | false, b :: w =>
    if b = cfg.escByte then unstuffFrom cfg true w
    else (b :: (unstuffFrom cfg false w).1, (unstuffFrom cfg false w).2)

/-- Unstuffing from no escape pending (rule R63). -/
def unstuff (cfg : Config) (w : List Byte) : List Byte × Bool := unstuffFrom cfg false w

/-- No byte of the stream is an unescaped END (rules R70 and R122). -/
def noPlainEndFrom (cfg : Config) : Bool → List Byte → Bool
  | _, [] => true
  | true, _ :: w => noPlainEndFrom cfg false w
  | false, b :: w => b != cfg.endByte && noPlainEndFrom cfg (b == cfg.escByte) w

/-- No byte of the stream is an unescaped END, from no escape pending. -/
def noPlainEnd (cfg : Config) (w : List Byte) : Bool := noPlainEndFrom cfg false w

/-- The two bytes of a half-word on the wire, low byte first: `[n mod 256, n >> 8]` (rules R44 and R64). -/
def leBytes (n : Nat) : List Byte := [BitVec.ofNat 8 (n % 256), BitVec.ofNat 8 (n / 256)]

/-- Message id, length and payload, the bytes the checksum is taken over (rules R64 and R66). -/
def frameBody (id : Byte) (len : Nat) (bytes : List Byte) : List Byte := id :: leBytes len ++ bytes

/-- The source's sender `frame` (rule R64): only the payload is stuffed, and the checksum is taken over the stuffed
bytes. It is not defined for a payload of 65536 bytes or more (spec/91_not_in_source.md N12). -/
def frame (cfg : Config) (id : Byte) (payload : List Byte) : Option (List Byte) :=
  if payload.length < 65536 then
    some (cfg.startByte :: frameBody id payload.length (stuff cfg payload)
      ++ leBytes (crc16 (frameBody id payload.length (stuff cfg payload))).toNat ++ [cfg.endByte])
  else none

/-- The sender that is the exact inverse of the block, `wire_rx` (rule R66), for payloads of at most `MAX_ACC - 6` bytes
(and of a length its two length bytes can hold): the checksum is taken over the unstuffed bytes and everything between
the markers is stuffed. -/
def wireRx (cfg : Config) (id : Byte) (payload : List Byte) : Option (List Byte) :=
  if payload.length + 6 ≤ cfg.maxAcc ∧ payload.length < 65536 then
    some (cfg.startByte :: stuff cfg (frameBody id payload.length payload
      ++ leBytes (crc16 (frameBody id payload.length payload)).toNat) ++ [cfg.endByte])
  else none

end Sys2Proof.Machine
end

