-- ==== Sys2Proof/Machine/Run.lean ====
section
/-! DEFINITION. An execution: operations applied one after the other (spec/00_scope.md rule R13; spec/20_memory.md rule
R50), for claims about more than one. -/

namespace Sys2Proof.Machine

/-- The operations in order, each applied to the state the one before it left; the first that does not complete ends the
run. -/
def execAll : List Instr → State → Host.Outcome State Fault Refusal
  | [], s => .next s
  | i :: rest, s =>
    match exec i s with
    | .next t => execAll rest t
    | .fault r => .fault r
    | .refused r => .refused r

/-- The bytes pushed in order, with the constants as an argument (rules R7 and R110): source §9, "so tests can vary the
threshold". -/
def pushAll (cfg : Config) : List Byte → State → State
  | [], s => s
  | b :: rest, s => pushAll cfg rest (pushByte cfg b s)

/-- The bytes of the `CRC.BYTE` operations in a run, in order (spec/20_memory.md rule R50). -/
def crcBytes : List Instr → List Byte
  | [] => []
  | .crcInit :: rest => crcBytes rest
  | .crcByte b :: rest => b :: crcBytes rest
  | .crcRead :: rest => crcBytes rest
  | .dfPush _ :: rest => crcBytes rest
  | .dfReset :: rest => crcBytes rest

end Sys2Proof.Machine
end

