-- ==== Sys2Proof/Safety.lean ====
section
/-! DEFINITION. What claims are stated in: the invariant of the block's own state, and what it is for a step to
complete. -/

namespace Sys2Proof.Machine

/-- The invariants of spec/10_state.md rule R27. They hold after reset and after every operation. -/
structure Inv (cfg : Config) (s : State) : Prop where
  /-- 1. `0 <= len(acc) <= MAX_ACC + 1`. -/
  fits : Memory.wf cfg s.acc = true
  /-- 2. `st = Idle` implies `acc = []`. -/
  idle : s.st = .idle → s.acc = []
  /-- 3. `st = InFrame` implies that `acc` is not empty and begins with START. -/
  inFrame : s.st = .inFrame → accByte? s.acc 0 = some cfg.startByte
  /-- 4. `st = EscapePending` implies `len(acc) <= MAX_ACC` and that `acc` begins with START. -/
  escape : s.st = .escapePending → s.acc.length ≤ cfg.maxAcc ∧ accByte? s.acc 0 = some cfg.startByte

/-- The outcome is a next state: no fault and no refusal. Every step of this block is safe in this sense (spec/
60_exceptions.md rule R150). -/
def Completes (o : Host.Outcome State Fault Refusal) : Prop := ∃ t, o = .next t

/-- `t` is reached from `s` by steps of the machine. -/
inductive Reaches (s : State) : State → Prop where
  | start : Reaches s s
  | step (t u : State) : Reaches s t → Sys2Proof.Machine.step t = .next u → Reaches s u

end Sys2Proof.Machine
end

