-- ==== Sys2Proof/Certificates/Slice0/Obligations.lean ====
section
/-! DEFINITION. The statements for the provers. Each docstring names the rule of spec/ it formalises; a rule that the spec
marks as derived, and a choice of this model, are named as such. -/

open Sys2Proof Sys2Proof.Machine

/-! ## Reset -/

/-- Rule R175: reset puts the block in `crc = 0xFFFF`, `st = Idle`, `acc = []` and gives no response. -/
def Obligations.ResetLeavesIdleEmptyAndCrcInitial : Prop :=
  State.reset.block = (0xFFFF, .idle, []) ∧
    ∀ s : State, (resetBlock s).block = (0xFFFF, .idle, []) ∧ (resetBlock s).responses = s.responses

/-- The spec's derived rule R177: `DF.RESET` leaves `crc` alone; `DF.RESET` and `CRC.INIT`, in either order, leave exactly
the reset state of the block. -/
def Obligations.DfResetWithCrcInitIsReset : Prop :=
  ∀ s : State,
    (∃ v, exec .dfReset s = .next v ∧ v.crc = s.crc) ∧
    (∃ t, execAll [.dfReset, .crcInit] s = .next t ∧ t.block = State.reset.block) ∧
    (∃ u, execAll [.crcInit, .dfReset] s = .next u ∧ u.block = State.reset.block)

/-! ## Encoding -/

/-- Rules R72 and R73: a word selects at most one row of the operation table, the decoder gives that row's operation, the
operand is bits 7:0, and a word that selects no row is illegal. The table is written out here from rule R72. -/
def Obligations.DecoderFollowsOperationTable : Prop :=
  ∀ w : CmdWord,
    (([("CRC.INIT", 0x000, 0x7FF), ("CRC.BYTE", 0x100, 0x700), ("CRC.READ", 0x200, 0x7FF),
        ("DF.PUSH", 0x300, 0x700), ("DF.RESET", 0x400, 0x7FF)] : List (String × CmdWord × CmdWord)).filter
      (fun row => w &&& row.2.2 == row.2.1)).map (·.1) = ((decode w).instr?.map Instr.mnemonic).toList ∧
    ∀ b : Byte, (decode w = .instr (.crcByte b) ∨ decode w = .instr (.dfPush b)) → b = w.setWidth 8

/-- Decoding and encoding agree in both directions: each operation has exactly one word. The encoding is that of rules
R71 and R72. -/
def Obligations.DecodeGivesExactlyTheEncodedOperation : Prop :=
  ∀ (w : CmdWord) (i : Instr), decode w = .instr i ↔ w = encode i

/-- Words written out from rule R72 and the programs of spec/95_test_vectors.md section 4. -/
def Obligations.WrittenOutWordsDecode : Prop :=
  decode 0b00000000000 = .instr .crcInit ∧ decode 0b00100110001 = .instr (.crcByte 0x31) ∧
    decode 0b01000000000 = .instr .crcRead ∧ decode 0b01101111110 = .instr (.dfPush 0x7E) ∧
    decode 0b10000000000 = .instr .dfReset ∧ (decode 0x500).instr? = none ∧ (decode 0x001).instr? = none

/-- Rule R158: an illegal command word changes no state and is answered `Illegal`, which is no Deframe Result. Only the
caller's side moves on. That the model executes an illegal word and does not refuse it is its choice (log entry 5). -/
def Obligations.IllegalWordChangesNoState : Prop :=
  (∀ (s : State) (w : CmdWord) (q : List CmdWord) (why : Illegal), s.pending = w :: q → decode w = .illegal why →
    step s = .next { s with pending := q, responses := s.responses ++ [.illegal] }) ∧
  ∀ r : Result, r.response ≠ .illegal

/-- Assembler text (rule R79) reads back as the operation it was written for. The rule gives the form of a line by one
example and no reader; the reader, and the spacing and digit case of a line, are the model's choice (log entry 17). -/
def Obligations.AssemblerLineReadsBack : Prop :=
  asmLine (.dfPush 0x7E) = "DF.PUSH 0x7E".toList ∧ ∀ i : Instr, readLine (asmLine i) = some i

/-- Rule R80: what the pseudo-operations expand to, and what the expansions do. A text has an expansion when all its
characters have an ASCII code, that is, are below 128. That a pseudo-operation is a function from its operands, and not
text to be read, is the model's choice (log entry 17). -/
def Obligations.PseudoOperationsRun : Prop :=
  (∀ bytes : List Byte, crcBuf bytes = [.crcInit] ++ bytes.map .crcByte ++ [.crcRead] ∧
    dfFeed bytes = bytes.map .dfPush) ∧
  (∀ (bytes : List Byte) (s : State), execAll (crcBuf bytes) s =
    .next { s with
      crc := crc16 bytes
      responses := s.responses ++ List.replicate (bytes.length + 1) .none ++ [.crc (crc16 bytes)] }) ∧
  (∀ (bytes : List Byte) (s : State), ∃ (t : State) (rs : List Response),
    execAll (dfFeed bytes) s = .next t ∧ t.responses = s.responses ++ rs ∧ rs.length = bytes.length) ∧
  (∀ text : String, (∀ c ∈ text.toList, c.toNat < 128) →
    dfFeedText text = some (text.toList.map fun c => .dfPush (BitVec.ofNat 8 c.toNat))) ∧
  ∀ (b : Byte) (m : Nat), dfFeedTimes b m = List.replicate m (.dfPush b)

/-- Rule R77: the reason strings, exact, and their codes. -/
def Obligations.ReasonStringsAndCodes : Prop :=
  [Reason.tooSmall, .invalidMarkers, .lengthMismatch, .crcMismatch, .bufferOverflow].map
      (fun r => (r.code.toNat, r.text, r.sourceName)) =
    [(1, "too small", "TooSmall"), (2, "invalid frame markers", "InvalidMarkers"),
     (3, "length mismatch", "LengthMismatch"), (4, "CRC mismatch", "CrcMismatch"),
     (5, "buffer overflow", "Stream overflow")]

/-- The suggested response word of rule R78, as this model packs it, tells any two responses apart. That the word is a
list of fields, whose values no width bounds, is the model's choice (log entry 18): a payload longer than the 11-bit
length can hold is told apart by the list and not by rule R78. -/
def Obligations.ResponseWordTellsResponsesApart : Prop :=
  ∀ r r' : Response, r.fields = r'.fields → r = r'

/-! ## Steps -/

/-- A step runs the operation that the next command word decodes to, on the state with that word taken from the caller's
queue. The queue is the model's own (log entry 3); that one operation is one step is rule R13. -/
def Obligations.StepRunsTheDecodedOperation : Prop :=
  ∀ (s : State) (w : CmdWord) (q : List CmdWord) (i : Instr), s.pending = w :: q → decode w = .instr i →
    step s = exec i { s with pending := q }

/-- With no command presented the block holds its state. The model's choice of what a step does then is log entry 6. -/
def Obligations.StepWithoutCommandHoldsTheState : Prop :=
  ∀ s : State, s.pending = [] → step s = .next s

/-- No operation ever stops, and no step: every one answers a next state (rules R121 and R150). For operations that is
the spec's; that a step on an empty queue answers a next state is the model's choice (log entry 6), and so is that an
illegal next word is executed and not refused (log entry 5). -/
def Obligations.EveryStepCompletes : Prop :=
  (∀ s : State, Completes (step s)) ∧ ∀ (i : Instr) (s : State), Completes (exec i s)

/-- Running the machine on the words of a list of operations is applying the operations in order (rule R13). The queue
the words stand in is the model's own (log entry 3). -/
def Obligations.QueueRunIsTheOperationsInOrder : Prop :=
  ∀ (ops : List Instr) (q : List CmdWord) (s : State),
    Host.Core.run Sys2Proof.core ops.length { s with pending := ops.map encode ++ q } =
      execAll ops { s with pending := q }

/-- Rule R76: every operation gives exactly one response, of the kinds its row names; a payload through the block has at
most 1018 bytes. The last clause, that an illegal word is executed and answered `Illegal`, is the model's choice where
rule R74 advises refusal (log entry 5). -/
def Obligations.OneResponseOfTheNamedKind : Prop :=
  (∀ (i : Instr) (s : State), ∃ (t : State) (r : Response),
    exec i s = .next t ∧ t.responses = s.responses ++ [r] ∧
    match i with
    | .crcInit => r = .none
    | .crcByte _ => r = .none
    | .crcRead => r = .crc s.crc
    | .dfPush _ => r = .none ∨ (∃ id p, r = .valid id p) ∨ ∃ why, r = .invalid why
    | .dfReset => r = .none) ∧
  (∀ (b : Byte) (s t : State) (id : Byte) (p : List Byte), Inv Config.default s → exec (.dfPush b) s = .next t →
    t.responses = s.responses ++ [.valid id p] → p.length ≤ 1018) ∧
  (∀ (s : State) (w : CmdWord) (q : List CmdWord) (why : Illegal), s.pending = w :: q → decode w = .illegal why →
    ∃ t, step s = .next t ∧ t.responses = s.responses ++ [.illegal])

/-- No operation reads or changes the commands still to come, and none reads the responses given: they are the caller's
side, which this model alone holds in its state (log entries 3 and 4). -/
def Obligations.CallerSideIsNeverRead : Prop :=
  ∀ (i : Instr) (s t : State), exec i s = .next t →
    t.pending = s.pending ∧ ∃ r : Response, t.responses = s.responses ++ [r] ∧
      ∀ (q : List CmdWord) (rs : List Response), exec i { s with pending := q, responses := rs } =
        .next { t with pending := q, responses := rs ++ [r] }

/-- Rule R32: the two units share no state. No CRC operation changes `st` or a byte of `acc`, no deframer operation
changes `crc`, and what each does and answers depends on its own unit's state alone. It rests on the spec's decision D3
(log entry 10). -/
def Obligations.UnitsShareNoState : Prop :=
  (∀ (i : Instr) (s t : State), (i = .crcInit ∨ (∃ b, i = .crcByte b) ∨ i = .crcRead) → exec i s = .next t →
    t.st = s.st ∧ t.acc = s.acc ∧ ∀ a : Nat, accByte? t.acc a = accByte? s.acc a) ∧
  (∀ (i : Instr) (s t : State), ((∃ b, i = .dfPush b) ∨ i = .dfReset) → exec i s = .next t → t.crc = s.crc) ∧
  (∀ (i : Instr) (s t s' t' : State), (i = .crcInit ∨ (∃ b, i = .crcByte b) ∨ i = .crcRead) →
    s.crc = s'.crc → exec i s = .next t → exec i s' = .next t' →
    t.crc = t'.crc ∧ ∃ r, t.responses = s.responses ++ [r] ∧ t'.responses = s'.responses ++ [r]) ∧
  (∀ (i : Instr) (s t s' t' : State), ((∃ b, i = .dfPush b) ∨ i = .dfReset) →
    s.st = s'.st → s.acc = s'.acc → exec i s = .next t → exec i s' = .next t' →
    t.st = t'.st ∧ t.acc = t'.acc ∧ ∃ r, t.responses = s.responses ++ [r] ∧ t'.responses = s'.responses ++ [r])

/-! ## The invariant -/

/-- The invariants of the spec's derived rule R27 hold after reset, for every threshold. -/
def Obligations.ResetMeetsTheInvariant : Prop :=
  Inv Config.default State.reset ∧ ∀ cfg : Config, Inv cfg State.reset

/-- The invariants of the spec's derived rule R27: every step keeps them, from every state that meets them; and so does
every push at every configuration. -/
def Obligations.StepKeepsTheInvariant : Prop :=
  (∀ s t : State, Inv Config.default s → step s = .next t → Inv Config.default t) ∧
  ∀ (cfg : Config) (b : Byte) (s : State), Inv cfg s → Inv cfg (pushByte cfg b s)

/-! ## The CRC unit -/

/-- Rule R92, `CRC.INIT`. -/
def Obligations.CrcInitSetsTheInitialValue : Prop :=
  encode .crcInit = 0x000 ∧
  (∀ s : State, exec .crcInit s = .next { s with crc := 0xFFFF, responses := s.responses ++ [.none] }) ∧
  ∀ s t u : State, exec .crcInit s = .next t → exec .crcInit t = .next u → u.block = t.block

/-- Rule R93, `CRC.BYTE b`, with its corner cases: a bijection of the register for each byte, injective in the byte. -/
def Obligations.CrcByteFoldsOneByte : Prop :=
  (∀ b : Byte, encode (.crcByte b) = 0x100 + b.setWidth 11) ∧
  (∀ (b : Byte) (s : State), exec (.crcByte b) s =
    .next { s with crc := crc16Update s.crc b, responses := s.responses ++ [.none] }) ∧
  (∀ b : Byte, Function.Bijective (fun c : Half => crc16Update c b)) ∧
  (∀ c : Half, Function.Injective (fun b : Byte => crc16Update c b)) ∧
  (∀ k : Nat, crcFold 0x0000 (List.replicate k 0x00) = 0x0000) ∧
  crc16Update 0xFFFF 0x00 = 0xE1F0 ∧ crc16Update 0xFFFF 0x31 = 0xC782

/-- Rule R94, `CRC.READ`: the register as it stands, unchanged by the read; its bytes go into a frame low byte first. -/
def Obligations.CrcReadAnswersTheRegister : Prop :=
  encode .crcRead = 0x200 ∧
  (∀ s : State, exec .crcRead s = .next { s with responses := s.responses ++ [.crc s.crc] }) ∧
  exec .crcRead State.reset = .next { State.reset with responses := [.crc 0xFFFF] } ∧
  ∀ v : Half, leBytes v.toNat = [v.extractLsb' 0 8, v.extractLsb' 8 8]

/-- Rule R90: the update is the bit-serial algorithm, here over natural numbers in the spec's notation of rule R10, and it
reproduces the source's check value. -/
def Obligations.CrcUpdateIsTheBitSerialAlgorithm : Prop :=
  (∀ (c : Half) (b : Byte), (crc16Update c b).toNat =
    (fun r : Nat => if r / 2 ^ 15 % 2 = 1 then (r * 2 % 2 ^ 16) ^^^ 0x1021 else r * 2 % 2 ^ 16)^[8]
      (c.toNat ^^^ (b.toNat * 2 ^ 8))) ∧
  crc16 [0x31, 0x32, 0x33, 0x34, 0x35, 0x36, 0x37, 0x38, 0x39] = 0x29B1

/-- Rule R91: `crc16` starts at 0xFFFF, takes the bytes in order, and hands out the register with no final inversion. -/
def Obligations.CrcOfBytesStartsAtInitialValue : Prop :=
  crc16 [] = 0xFFFF ∧
    ∀ (bytes : List Byte) (b : Byte), crc16 (bytes ++ [b]) = crc16Update (crc16 bytes) b

/-- The spec's derived rule R95: the register after `CRC.INIT` (or reset) and any operations with no other `CRC.INIT`,
deframer operations among them, is `crc16` of the `CRC.BYTE` operands in order, and `CRC.READ` answers it. It interleaves
the two units, and so relies on the spec's decision D3 (log entry 10). -/
def Obligations.StreamingCrcEqualsTheFunction : Prop :=
  ∀ ops : List Instr, (∀ i ∈ ops, i ≠ .crcInit) →
    (∀ s : State, ∃ t, execAll ops s = .next t ∧ t.crc = crcFold s.crc (crcBytes ops)) ∧
    (∀ s : State, ∃ t, execAll (.crcInit :: ops ++ [.crcRead]) s = .next t ∧
      t.crc = crc16 (crcBytes ops) ∧ t.responses.getLast? = some (.crc (crc16 (crcBytes ops)))) ∧
    (∃ t, execAll (ops ++ [.crcRead]) State.reset = .next t ∧
      t.crc = crc16 (crcBytes ops) ∧ t.responses.getLast? = some (.crc (crc16 (crcBytes ops))))

/-- The spec's derived rule R97 (a): the update is linear over exclusive-or. -/
def Obligations.CrcUpdateIsLinear : Prop :=
  ∀ (c c' : Half) (b b' : Byte),
    crc16Update (c ^^^ c') (b ^^^ b') = crc16Update c b ^^^ crc16Update c' b'

/-- The spec's derived rule R97 (b): the table form, with the table entries it prints. -/
def Obligations.CrcUpdateIsTheTableForm : Prop :=
  (∀ (c : Half) (b : Byte),
    crc16Update c b = (c <<< 8) ^^^ crc16Update 0 ((c >>> 8).setWidth 8 ^^^ b)) ∧
  ([0, 1, 2, 3, 4, 5, 6, 7] : List Byte).map (crc16Update 0) =
    [0x0000, 0x1021, 0x2042, 0x3063, 0x4084, 0x50A5, 0x60C6, 0x70E7] ∧
  crc16Update 0 255 = 0x1EF0

/-- A bit string read as a polynomial over GF(2), the first bit the highest power (rule R97 (c)). -/
noncomputable def Sys2Proof.Machine.bitsPoly (bits : List Bool) : Polynomial (ZMod 2) :=
  bits.foldl (fun p bit => p * Polynomial.X + if bit then 1 else 0) 0

/-- The spec's derived rule R97 (c): the register after the bytes is the remainder of
`c0(x) * x^(8k) + M(x) * x^16` modulo `x^16 + x^12 + x^5 + 1`. -/
def Obligations.CrcIsThePolynomialRemainder : Prop :=
  ∀ (c : Half) (bytes : List Byte),
    bitsPoly ((List.range 16).map (crcFold c bytes).getMsbD) =
      (bitsPoly ((List.range 16).map c.getMsbD) * Polynomial.X ^ (8 * bytes.length)
        + bitsPoly (bytes.flatMap fun b => (List.range 8).map b.getMsbD) * Polynomial.X ^ 16)
      %ₘ (Polynomial.X ^ 16 + Polynomial.X ^ 12 + Polynomial.X ^ 5 + 1)

/-- Rule R45 (a consequence the spec derives): running the CRC on over its own two bytes gives zero when the high byte
goes first, and in wire order, low byte first, only when the two bytes are equal. -/
def Obligations.CrcResidueNeedsTheHighByteFirst : Prop :=
  ∀ (bytes : List Byte) (lo hi : Byte), hi ++ lo = crc16 bytes →
    crc16 (bytes ++ [hi, lo]) = 0 ∧ (crc16 (bytes ++ [lo, hi]) = 0 ↔ lo = hi)

/-! ## The deframer unit -/

/-- The transition table of rule R118, written out row by row: the row's condition, and the state, the accumulator and the
response after. -/
def Sys2Proof.Machine.pushTable (b : Byte) (s : State) : List (Bool × RxState × Memory × Response) :=
  [(s.st = .idle ∧ b = 0x7E, .inFrame, [0x7E], .none),
   (s.st = .idle ∧ b ≠ 0x7E, .idle, s.acc, .none),
   (s.st = .inFrame ∧ s.acc.length > 1024, .idle, [], .invalid .bufferOverflow),
   (s.st = .escapePending ∧ s.acc.length > 1024, .idle, [], .invalid .bufferOverflow),
   (s.st = .escapePending ∧ s.acc.length ≤ 1024, .inFrame, s.acc ++ [b ^^^ 0x20], .none),
   (s.st = .inFrame ∧ s.acc.length ≤ 1024 ∧ b = 0x7C, .escapePending, s.acc, .none),
   (s.st = .inFrame ∧ s.acc.length ≤ 1024 ∧ b = 0x7D, .idle, [],
     (validate Config.default (s.acc ++ [0x7D])).response),
   (s.st = .inFrame ∧ s.acc.length ≤ 1024 ∧ b ≠ 0x7C ∧ b ≠ 0x7D, .inFrame, s.acc ++ [b], .none)]

/-- Rules R110 and R118 (rows R111, R112 and R114 to R117): exactly one row applies to any state and byte, and the push
does what the row says and nothing else. -/
def Obligations.PushFollowsTheTransitionTable : Prop :=
  ∀ (b : Byte) (s : State),
    (pushTable b s).countP (·.1) = 1 ∧
    ∀ row ∈ pushTable b s, row.1 = true → exec (.dfPush b) s =
      .next { s with st := row.2.1, acc := row.2.2.1, responses := s.responses ++ [row.2.2.2] }

/-- Rule R113, the overflow guard: it fires on more than 1024 bytes, whatever the byte, and never otherwise; it cannot
fire in EscapePending; the accumulator reaches 1025 bytes without overflow; an END that is the 1025th byte completes the
frame. -/
def Obligations.OverflowGuardFiresAboveTheThreshold : Prop :=
  (∀ (b : Byte) (s : State), s.st ≠ .idle → 1024 < s.acc.length → exec (.dfPush b) s =
    .next { s with st := .idle, acc := [], responses := s.responses ++ [.invalid .bufferOverflow] }) ∧
  (∀ (b : Byte) (s t : State), (s.st = .idle ∨ s.acc.length ≤ 1024) → exec (.dfPush b) s = .next t →
    t.responses ≠ s.responses ++ [.invalid .bufferOverflow]) ∧
  (∀ (b : Byte) (s t : State), Inv Config.default s → s.st = .escapePending → exec (.dfPush b) s = .next t →
    t.responses = s.responses ++ [.none]) ∧
  (∀ (b : Byte) (s : State), s.st = .inFrame → s.acc.length = 1024 → b ≠ 0x7C → b ≠ 0x7D →
    ∃ t, exec (.dfPush b) s = .next t ∧ t.acc.length = 1025 ∧ t.responses = s.responses ++ [.none]) ∧
  (∀ s : State, s.st = .inFrame → s.acc.length = 1024 → exec (.dfPush 0x7D) s =
    .next { s with
      st := .idle
      acc := []
      responses := s.responses ++ [(validate Config.default (s.acc ++ [0x7D])).response] })

/-- Rule R119, `DF.RESET`: in every state; every address of the accumulator reads as nothing after it, and in Idle it
changes nothing. -/
def Obligations.DfResetReturnsToIdle : Prop :=
  encode .dfReset = 0x400 ∧
  (∀ s : State, exec .dfReset s =
    .next { s with st := .idle, acc := [], responses := s.responses ++ [.none] }) ∧
  (∀ s t : State, exec .dfReset s = .next t → ∀ a : Nat, accByte? t.acc a = none) ∧
  (∀ s t : State, Inv Config.default s → s.st = .idle → exec .dfReset s = .next t → t.block = s.block)

/-- Rule R41 and the frames of all five operations over the accumulator. In a push a byte enters only at the address
`accStoreAddr`, and in a frame only when at most 1024 bytes stand in it; every other address reads as before; bytes leave
only all together. No CRC operation touches a byte, and after `DF.RESET` no address holds one. -/
def Obligations.AccumulatorBytesChangeOnlyByAppendAndClear : Prop :=
  (∀ (b : Byte) (s t : State), exec (.dfPush b) s = .next t →
    t.crc = s.crc ∧ t.pending = s.pending ∧
    (s.st = .idle → b ≠ 0x7E → ∀ a : Nat, accByte? t.acc a = accByte? s.acc a) ∧
    (s.st = .idle → b = 0x7E → accByte? t.acc (accStoreAddr accClear) = some 0x7E ∧
      ∀ a : Nat, a ≠ accStoreAddr accClear → accByte? t.acc a = none) ∧
    (s.st ≠ .idle → 1024 < s.acc.length → ∀ a : Nat, accByte? t.acc a = none) ∧
    (s.st = .escapePending → s.acc.length ≤ 1024 → t.acc.length = s.acc.length + 1 ∧
      accByte? t.acc (accStoreAddr s.acc) = some (b ^^^ 0x20) ∧
      ∀ a : Nat, a ≠ accStoreAddr s.acc → accByte? t.acc a = accByte? s.acc a) ∧
    (s.st = .inFrame → s.acc.length ≤ 1024 → b = 0x7C → ∀ a : Nat, accByte? t.acc a = accByte? s.acc a) ∧
    (s.st = .inFrame → s.acc.length ≤ 1024 → b = 0x7D → ∀ a : Nat, accByte? t.acc a = none) ∧
    (s.st = .inFrame → s.acc.length ≤ 1024 → b ≠ 0x7C → b ≠ 0x7D → t.acc.length = s.acc.length + 1 ∧
      accByte? t.acc (accStoreAddr s.acc) = some b ∧
      ∀ a : Nat, a ≠ accStoreAddr s.acc → accByte? t.acc a = accByte? s.acc a)) ∧
  (∀ (i : Instr) (s t : State), (i = .crcInit ∨ (∃ b, i = .crcByte b) ∨ i = .crcRead) → exec i s = .next t →
    t.st = s.st ∧ t.pending = s.pending ∧ ∀ a : Nat, accByte? t.acc a = accByte? s.acc a) ∧
  (∀ s t : State, exec .dfReset s = .next t →
    t.crc = s.crc ∧ t.pending = s.pending ∧ ∀ a : Nat, accByte? t.acc a = none)

/-- The spec's derived rule R120: a push answers something other than `None` in exactly two cases. -/
def Obligations.ResultsOnlyFromTheGuardOrAnEnd : Prop :=
  ∀ (b : Byte) (s t : State), exec (.dfPush b) s = .next t →
    (t.responses ≠ s.responses ++ [.none] ↔
      (s.st ≠ .idle ∧ 1024 < s.acc.length) ∨ (s.st = .inFrame ∧ s.acc.length ≤ 1024 ∧ b = 0x7D))

/-- Rule R155: what a result does to the state, completely, and it is the same for a Valid and for an Invalid one. -/
def Obligations.AnyResultReturnsToIdleAndNothingElse : Prop :=
  ∀ (b : Byte) (s t : State) (r : Response), exec (.dfPush b) s = .next t →
    t.responses = s.responses ++ [r] → r ≠ .none →
    ((∃ id p, r = .valid id p) ∨ ∃ why, r = .invalid why) ∧
    t = { s with st := .idle, acc := [], responses := s.responses ++ [r] }

/-- The spec's derived rule R121: from every state the bytes 0x00, 0x7D lead to Idle. -/
def Obligations.ZeroThenEndLeadsToIdle : Prop :=
  ∀ s : State, ∃ t, execAll [.dfPush 0x00, .dfPush 0x7D] s = .next t ∧ t.st = .idle

/-- The spec's derived rule R132: no push answers "invalid frame markers". -/
def Obligations.InvalidMarkersIsNeverAnswered : Prop :=
  ∀ (b : Byte) (s t : State), Inv Config.default s → exec (.dfPush b) s = .next t →
    t.responses ≠ s.responses ++ [.invalid .invalidMarkers]

/-- The spec's derived rules R8 and R9: whatever the threshold, a Valid payload has at most `MAX_ACC - 6` bytes, so with
`MAX_ACC < 6` no frame validates. -/
def Obligations.PayloadIsBoundedByTheThreshold : Prop :=
  ∀ (cfg : Config) (b : Byte) (s : State) (id : Byte) (p : List Byte), Inv cfg s →
    (pushByte cfg b s).responses = s.responses ++ [.valid id p] → p.length + 6 ≤ cfg.maxAcc

/-! ## The validation pass -/

/-- Rules R130 and R136: the five steps in order, each with the bytes it reads. -/
def Obligations.ValidateRunsItsStepsInOrder : Prop :=
  ∀ image : List Byte,
    (image.length < 7 → validate Config.default image = .invalid .tooSmall) ∧
    (7 ≤ image.length → (image[0]? ≠ some 0x7E ∨ image[image.length - 1]? ≠ some 0x7D) →
      validate Config.default image = .invalid .invalidMarkers) ∧
    (∀ id lo hi clo chi : Byte, 7 ≤ image.length →
      image[0]? = some 0x7E → image[image.length - 1]? = some 0x7D → image[1]? = some id →
      image[2]? = some lo → image[3]? = some hi →
      image[image.length - 3]? = some clo → image[image.length - 2]? = some chi →
      validate Config.default image =
        if image.length ≠ lo.toNat + 256 * hi.toNat + 7 then .invalid .lengthMismatch
        else if (crc16 (slice image 1 (image.length - 4))).toNat ≠ clo.toNat + 256 * chi.toNat then
          .invalid .crcMismatch
        else .valid id (slice image 4 (image.length - 4)))

/-- The spec's derived rule R137: `VALIDATE` answers Valid for exactly the images of frames. -/
def Obligations.ValidExactlyForFrameImages : Prop :=
  ∀ (image : List Byte) (id : Byte) (p : List Byte),
    validate Config.default image = .valid id p ↔
      p.length < 65536 ∧ image = [0x7E, id] ++ leBytes p.length ++ p
        ++ leBytes (crc16 ([id] ++ leBytes p.length ++ p)).toNat ++ [0x7D]

/-- The spec's derived rule R99: changing a single bit of the message id, the payload or the checksum of an accepted image
makes it "CRC mismatch". (In the length bytes the length check answers first.) -/
def Obligations.SingleBitChangeIsCrcMismatch : Prop :=
  ∀ (image : List Byte) (id : Byte) (p : List Byte) (i k : Nat),
    validate Config.default image = .valid id p → k < 8 → (i = 1 ∨ 4 ≤ i ∧ i + 2 ≤ image.length) →
    validate Config.default (image.modify i (· ^^^ BitVec.twoPow 8 k)) = .invalid .crcMismatch

/-! ## Streams -/

/-- Rule R62: stuffing, the three substitutions, and that unstuffing restores every byte sequence. -/
def Obligations.StuffingIsUndoneByUnstuffing : Prop :=
  (∀ b : Byte, stuff Config.default [b] =
    if b = 0x7E then [0x7C, 0x5E] else if b = 0x7D then [0x7C, 0x5D]
    else if b = 0x7C then [0x7C, 0x5C] else [b]) ∧
  (∀ p q : List Byte, stuff Config.default (p ++ q) = stuff Config.default p ++ stuff Config.default q) ∧
  ∀ p : List Byte,
    (∀ b ∈ stuff Config.default p, b ≠ 0x7E ∧ b ≠ 0x7D) ∧
    (∀ i : Nat, (stuff Config.default p)[i]? = some 0x7C →
      ∃ x ∈ ([0x5E, 0x5D, 0x5C] : List Byte), (stuff Config.default p)[i + 1]? = some x) ∧
    (stuff Config.default p).length = p.length + p.countP Config.default.isSpecial ∧
    unstuff Config.default (stuff Config.default p) = (p, false)

/-- The spec's derived rule R122: after START the accumulator is the unstuffed stream, as long as no unescaped END comes
and the guard does not fire. -/
def Obligations.AccumulatorIsTheUnstuffedStream : Prop :=
  (∀ (w : List Byte) (s : State), s.st = .idle → noPlainEnd Config.default w = true →
    (∀ k < w.length, (unstuff Config.default (w.take k)).1.length + 1 ≤ 1024) →
    execAll (dfFeed (0x7E :: w)) s = .next { s with
      st := if (unstuff Config.default w).2 then .escapePending else .inFrame
      acc := 0x7E :: (unstuff Config.default w).1
      responses := s.responses ++ List.replicate (w.length + 1) .none }) ∧
  (∀ (u : List Byte) (s : State), s.st = .idle → u.length ≤ 1024 →
    execAll (dfFeed (0x7E :: stuff Config.default u)) s = .next { s with
      st := .inFrame
      acc := 0x7E :: u
      responses := s.responses ++ List.replicate ((stuff Config.default u).length + 1) .none })

/-- The spec's derived rule R66: every payload of at most 1018 bytes, with every message id, goes through when the sender
is `wire_rx`: `None` for every byte but the last, Valid for the last, and the block is back in Idle. -/
def Obligations.WireRxFramesAreAccepted : Prop :=
  ∀ (id : Byte) (p : List Byte) (s : State), p.length ≤ 1018 → s.st = .idle → s.acc = [] →
    ∃ F : List Byte, wireRx Config.default id p = some F ∧ execAll (dfFeed F) s =
      .next { s with responses := s.responses ++ List.replicate (F.length - 1) .none ++ [.valid id p] }

/-- The spec's derived rule R65, case 1, and the end of R66: a frame of the source's sender with no special byte between
its markers is the frame `wire_rx` sends, and it is accepted. -/
def Obligations.EscapeFreeFramesAreAccepted : Prop :=
  ∀ (id : Byte) (p F : List Byte) (s : State), p.length ≤ 1018 → frame Config.default id p = some F →
    (∀ b ∈ F.tail.dropLast, Config.default.isSpecial b = false) → s.st = .idle → s.acc = [] →
    wireRx Config.default id p = some F ∧ execAll (dfFeed F) s =
      .next { s with responses := s.responses ++ List.replicate (F.length - 1) .none ++ [.valid id p] }

/-- The spec's derived rule R65, case 2: a frame of the source's sender whose payload holds a special byte, while its id,
length and checksum bytes do not, is answered "CRC mismatch" unless the two checksums collide. -/
def Obligations.StuffedSourceFramesAreCrcMismatch : Prop :=
  ∀ (id : Byte) (p F : List Byte) (s : State), p.length ≤ 1018 → frame Config.default id p = some F →
    (∃ b ∈ p, Config.default.isSpecial b = true) → Config.default.isSpecial id = false →
    (∀ b ∈ leBytes p.length, Config.default.isSpecial b = false) →
    (∀ b ∈ leBytes (crc16 (frameBody id p.length (stuff Config.default p))).toNat,
      Config.default.isSpecial b = false) →
    s.st = .idle → s.acc = [] →
    execAll (dfFeed F) s = .next { s with responses := s.responses ++ List.replicate (F.length - 1) .none ++
      [if crc16 (frameBody id p.length p) = crc16 (frameBody id p.length (stuff Config.default p)) then .valid id p
       else .invalid .crcMismatch] }

/-- Rule R70: the first unescaped END after a START completes the frame, wherever it falls and whatever the length field
says; an END after ESCAPE is stored as 0x5D and completes nothing. -/
def Obligations.FirstUnescapedEndCompletesTheFrame : Prop :=
  ∀ (w : List Byte) (s : State), s.st = .idle → s.acc = [] → noPlainEnd Config.default w = true →
    (unstuff Config.default w).1.length + 1 ≤ 1024 →
    ((unstuff Config.default w).2 = false → execAll (dfFeed (0x7E :: w ++ [0x7D])) s = .next { s with
      responses := s.responses ++ List.replicate (w.length + 1) .none ++
        [(validate Config.default (0x7E :: (unstuff Config.default w).1 ++ [0x7D])).response] }) ∧
    ((unstuff Config.default w).2 = true → execAll (dfFeed (0x7E :: w ++ [0x7D])) s = .next { s with
      st := .inFrame
      acc := 0x7E :: (unstuff Config.default w).1 ++ [0x5D]
      responses := s.responses ++ List.replicate (w.length + 2) .none })

/-- The spec's derived rule R123: a buffer with its markers, no 0x7C and no 0x7D between them and at most 1025 bytes gets
from the stream what `VALIDATE` answers for it whole. -/
def Obligations.StreamAgreesWithWholeBuffer : Prop :=
  ∀ (B : List Byte) (s : State), B.length ≤ 1025 → B[0]? = some 0x7E → B.getLast? = some 0x7D →
    (∀ b ∈ B.tail.dropLast, b ≠ 0x7C ∧ b ≠ 0x7D) → s.st = .idle → s.acc = [] →
    execAll (dfFeed B) s = .next { s with
      responses := s.responses ++ List.replicate (B.length - 1) .none ++ [(validate Config.default B).response] }

/-- The spec's derived rules R99 and R184, with the corner case of rule R133: a single flipped bit on the channel, between
the markers of an accepted escape-free frame, is reported at the last byte when the flipped byte is not 0x7C or 0x7D. In
the message id, the payload or the checksum it is answered "CRC mismatch", in a length byte "length mismatch". -/
def Obligations.SingleFlippedBitOnTheChannelIsReported : Prop :=
  ∀ (B : List Byte) (id : Byte) (p : List Byte) (i k : Nat) (s : State), B.length ≤ 1025 →
    validate Config.default B = .valid id p → (∀ b ∈ B.tail.dropLast, b ≠ 0x7C ∧ b ≠ 0x7D) →
    k < 8 → 1 ≤ i → i + 2 ≤ B.length →
    (∀ b ∈ (B.modify i (· ^^^ BitVec.twoPow 8 k)).tail.dropLast, b ≠ 0x7C ∧ b ≠ 0x7D) →
    s.st = .idle → s.acc = [] →
    execAll (dfFeed (B.modify i (· ^^^ BitVec.twoPow 8 k))) s = .next { s with
      responses := s.responses ++ List.replicate (B.length - 1) .none ++
        [.invalid (if i = 2 ∨ i = 3 then .lengthMismatch else .crcMismatch)] }

/-- The spec's derived rules R113 and R124, source §8: START and 1024 further bytes, none ESCAPE or END, give no result,
and the byte after them, whatever it is, is answered "buffer overflow"; the block is then in Idle. -/
def Obligations.OversizeStreamOverflowsOnTheNextByte : Prop :=
  ∀ (w : List Byte) (b : Byte) (s : State), s.st = .idle → w.length = 1024 →
    (∀ x ∈ w, x ≠ 0x7C ∧ x ≠ 0x7D) →
    (∃ t, execAll (dfFeed (0x7E :: w)) s = .next t ∧ t.st = .inFrame ∧ t.acc.length = 1025 ∧
      t.responses = s.responses ++ List.replicate 1025 .none) ∧
    execAll (dfFeed (0x7E :: w ++ [b])) s = .next { s with
      st := .idle
      acc := []
      responses := s.responses ++ List.replicate 1025 .none ++ [.invalid .bufferOverflow] }

/-- The spec's derived rules R124 and R185, source §8, "the receiver then accepts a fresh START": after an overflow, bytes
without a START are dropped and the next `wire_rx` frame is accepted. -/
def Obligations.FreshFrameIsAcceptedAfterOverflow : Prop :=
  ∀ (w junk p : List Byte) (b id : Byte) (s : State), s.st = .idle → s.acc = [] → w.length = 1024 →
    (∀ x ∈ w, x ≠ 0x7C ∧ x ≠ 0x7D) → (∀ x ∈ junk, x ≠ 0x7E) → p.length ≤ 1018 →
    ∃ F : List Byte, wireRx Config.default id p = some F ∧
      execAll (dfFeed (0x7E :: w ++ [b] ++ junk ++ F)) s = .next { s with
        responses := s.responses ++ List.replicate 1025 .none ++ [.invalid .bufferOverflow] ++
          List.replicate (junk.length + (F.length - 1)) .none ++ [.valid id p] }

/-- The spec's derived rule R138: the shortest stimuli for the four reasons. From reset each gives its reason with its
last byte; and from any state in Idle no shorter sequence of bytes gives that reason. -/
def Obligations.ShortestStimuliForTheReasons : Prop :=
  (([([0x7E, 0x7D], .tooSmall), ([0x7E, 0x01, 0x05, 0x00, 0x00, 0x00, 0x7D], .lengthMismatch),
     ([0x7E, 0x01, 0x00, 0x00, 0x00, 0x00, 0x7D], .crcMismatch),
     (0x7E :: List.replicate 1025 0x55, .bufferOverflow)] : List (List Byte × Reason)).Forall
    fun x => ∃ t, execAll (dfFeed x.1) State.reset = .next t ∧ t.responses.getLast? = some (.invalid x.2)) ∧
  ∀ (bytes : List Byte) (s t : State) (rs : List Response), s.st = .idle →
    execAll (dfFeed bytes) s = .next t → t.responses = s.responses ++ rs →
    (.invalid .tooSmall ∈ rs → 2 ≤ bytes.length) ∧
    (.invalid .lengthMismatch ∈ rs → 7 ≤ bytes.length) ∧
    (.invalid .crcMismatch ∈ rs → 7 ≤ bytes.length) ∧
    (.invalid .bufferOverflow ∈ rs → 1026 ≤ bytes.length)
end

