-- ==== Sys2Proof/Laws/Config.lean ====
section
/-! SUPPORT. The source's constants, one lemma each (spec/00_scope.md rule R7), and that they meet rule R8. -/

namespace Sys2Proof.Config

theorem default_startByte : default.startByte = 0x7E := rfl
theorem default_endByte : default.endByte = 0x7D := rfl
theorem default_escByte : default.escByte = 0x7C := rfl
theorem default_maxAcc : default.maxAcc = 1024 := rfl
theorem default_wf : default.wf = true := by decide

/-- The special bytes of the source's configuration (rule R14). -/
theorem default_isSpecial (b : Byte) :
    default.isSpecial b = true ↔ b = 0x7E ∨ b = 0x7D ∨ b = 0x7C := by
  simp [isSpecial, default, or_assoc]

/-- What a well-formed configuration promises. -/
theorem wf_iff (cfg : Config) :
    cfg.wf = true ↔ cfg.startByte ≠ cfg.endByte ∧ cfg.startByte ≠ cfg.escByte ∧
      cfg.endByte ≠ cfg.escByte ∧ 1 ≤ cfg.maxAcc := by
  simp [wf, and_assoc]

end Sys2Proof.Config
end

