-- ==== Sys2Proof/Laws/Crc.lean ====
section
/-! SUPPORT. The small laws of the CRC functions. -/

namespace Sys2Proof.Machine

@[simp] theorem crcFold_nil (c : Half) : crcFold c [] = c := rfl
@[simp] theorem crcFold_cons (c : Half) (b : Byte) (bs : List Byte) :
    crcFold c (b :: bs) = crcFold (crc16Update c b) bs := rfl

theorem crcFold_append (c : Half) (bs ds : List Byte) :
    crcFold c (bs ++ ds) = crcFold (crcFold c bs) ds := List.foldl_append

@[simp] theorem crc16_nil : crc16 [] = Config.crcInit := rfl

/-- Applying `CRC_XOROUT` would change nothing: "no final inversion" (rule R7). -/
theorem crcXorOut_changes_nothing (v : Half) : v ^^^ Config.crcXorOut = v := BitVec.xor_zero

theorem crcShifts_add (j k : Nat) (r : Half) : crcShifts (j + k) r = crcShifts k (crcShifts j r) := by
  induction j generalizing r with
  | zero => simp [crcShifts]
  | succ j ih => rw [Nat.succ_add]; exact ih (crcShift r)

/-- The shift step with its test written as a mask. -/
theorem crcShift_eq (r : Half) :
    crcShift r = (r <<< 1) ^^^ (if r.msb then Config.crcPoly else 0) := by
  unfold crcShift; split <;> simp

/-- The shift step is linear over exclusive-or. -/
theorem crcShift_xor (r r' : Half) : crcShift (r ^^^ r') = crcShift r ^^^ crcShift r' := by
  have hs : (r ^^^ r') <<< 1 = (r <<< 1) ^^^ (r' <<< 1) := BitVec.shiftLeft_xor_distrib r r' 1
  rw [crcShift_eq, crcShift_eq, crcShift_eq, hs, BitVec.msb_xor]
  cases r.msb <;> cases r'.msb <;> simp
  · ac_rfl
  · ac_rfl
  · rw [show ∀ p x y : Half, (x ^^^ p) ^^^ (y ^^^ p) = (x ^^^ y) ^^^ (p ^^^ p) from fun _ _ _ => by ac_rfl]
    simp

theorem crcShifts_xor (k : Nat) (r r' : Half) :
    crcShifts k (r ^^^ r') = crcShifts k r ^^^ crcShifts k r' := by
  induction k generalizing r r' with
  | zero => rfl
  | succ k ih => simp only [crcShifts, crcShift_xor, ih]

/-- The shift step loses nothing: only zero goes to zero, because the polynomial's constant term is 1. -/
theorem crcShift_eq_zero (r : Half) (h : crcShift r = 0) : r = 0 := by
  rw [crcShift_eq] at h
  cases hm : r.msb with
  | false =>
    have hlow : ∀ i, i < 16 → r.getLsbD i = false := by
      intro i hi
      rcases Nat.lt_or_ge i 15 with hi' | hi'
      · have := congrArg (fun v => v.getLsbD (i + 1)) h
        simpa [hm, hi, hi', show i + 1 < 16 by omega] using this
      · obtain rfl : i = 15 := by omega
        simpa [BitVec.msb_eq_getLsbD_last] using hm
    exact BitVec.eq_of_getLsbD_eq (fun i hi => (hlow i hi).trans BitVec.getLsbD_zero.symm)
  | true =>
    have := congrArg (fun v => v.getLsbD 0) h
    simp [hm, Config.crcPoly] at this

theorem crcShifts_eq_zero (k : Nat) (r : Half) (h : crcShifts k r = 0) : r = 0 := by
  induction k generalizing r with
  | zero => exact h
  | succ k ih => exact crcShift_eq_zero r (ih _ h)

end Sys2Proof.Machine
end

