-- ==== Sys2Proof/Laws/State.lean ====
section
/-! SUPPORT. What each shared update of the state does to each field: one lemma a field, true by unfolding. -/

namespace Sys2Proof.Machine

variable (r : Response) (res : Result) (s : State)

@[simp] theorem respond_crc : (respond r s).crc = s.crc := rfl
@[simp] theorem respond_st : (respond r s).st = s.st := rfl
@[simp] theorem respond_acc : (respond r s).acc = s.acc := rfl
@[simp] theorem respond_pending : (respond r s).pending = s.pending := rfl
@[simp] theorem respond_responses : (respond r s).responses = s.responses ++ [r] := rfl
@[simp] theorem respond_block : (respond r s).block = s.block := rfl

@[simp] theorem finishFrame_crc : (finishFrame res s).crc = s.crc := rfl
@[simp] theorem finishFrame_st : (finishFrame res s).st = .idle := rfl
@[simp] theorem finishFrame_acc : (finishFrame res s).acc = [] := rfl
@[simp] theorem finishFrame_pending : (finishFrame res s).pending = s.pending := rfl
@[simp] theorem finishFrame_responses :
    (finishFrame res s).responses = s.responses ++ [res.response] := rfl

@[simp] theorem respondIllegal_block : (respondIllegal s).block = s.block := rfl
@[simp] theorem respondIllegal_pending : (respondIllegal s).pending = s.pending := rfl
@[simp] theorem respondIllegal_responses :
    (respondIllegal s).responses = s.responses ++ [.illegal] := rfl

@[simp] theorem resetBlock_crc : (resetBlock s).crc = Config.crcInit := rfl
@[simp] theorem resetBlock_st : (resetBlock s).st = .idle := rfl
@[simp] theorem resetBlock_acc : (resetBlock s).acc = [] := rfl
@[simp] theorem resetBlock_pending : (resetBlock s).pending = s.pending := rfl
@[simp] theorem resetBlock_responses : (resetBlock s).responses = s.responses := rfl

@[simp] theorem holdState_eq : holdState s = s := rfl

@[simp] theorem response_valid (id : Byte) (p : List Byte) :
    (Result.valid id p).response = .valid id p := rfl
@[simp] theorem response_invalid (why : Reason) :
    (Result.invalid why).response = .invalid why := rfl

/-- A Deframe Result is never the response `None`. -/
theorem response_ne_none : res.response ≠ .none := by cases res <;> simp

end Sys2Proof.Machine
end

