-- ==== Sys2Proof/Laws/Memory.lean ====
section
/-! SUPPORT. The laws of the accumulator: reads after an append or a clear, the bound every memory operation keeps, the
form of its cells, and the operand fields as list elements. -/

namespace Sys2Proof.Machine

@[simp] theorem accByte_clear (a : Nat) : accByte? accClear a = none := by simp [accByte?, accClear]

/-- Reading the address an append stored at gives the byte stored. -/
@[simp] theorem accByte_append_at (m : Memory) (v : Byte) :
    accByte? (accAppend m v) (accStoreAddr m) = some v := by
  simp [accByte?, accAppend, accStoreAddr]

/-- An append leaves every other address alone. -/
theorem accByte_append_other (m : Memory) (v : Byte) (a : Nat) (h : a ≠ accStoreAddr m) :
    accByte? (accAppend m v) a = accByte? m a := by
  unfold accByte? accAppend
  unfold accStoreAddr at h
  rcases Nat.lt_or_gt_of_ne h with h | h
  · exact List.getElem?_append_left h
  · rw [List.getElem?_eq_none (by simp; omega), List.getElem?_eq_none (by omega)]

@[simp] theorem accAppend_length (m : Memory) (v : Byte) :
    (accAppend m v).length = m.length + 1 := by simp [accAppend]

@[simp] theorem accClear_length : accClear.length = 0 := rfl

theorem accRead_eq_byte (m : Memory) (i : Nat) (h : i < m.length) :
    accByte? m i = some (accRead m i h) := List.getElem?_eq_getElem h

/-- A half-word is `acc[i] + 256 * acc[i+1]`. -/
theorem accHalf_toNat (m : Memory) (i : Nat) (h : i + 1 < m.length) :
    (accHalf m i h).toNat = (accRead m i (Nat.lt_of_succ_lt h)).toNat + 256 * (accRead m (i + 1) h).toNat := by
  unfold accHalf
  rw [BitVec.toNat_append, ← Nat.shiftLeft_add_eq_or_of_lt (BitVec.isLt _), Nat.shiftLeft_eq]
  omega

/-- The length field as the two bytes it is read from (rule R68). -/
theorem lenField_eq (image : Memory) (h : Config.minFrame ≤ image.length) :
    lenField image h = (accRead image 2 (Nat.lt_of_lt_of_le (by decide) h)).toNat
      + 256 * (accRead image 3 (Nat.lt_of_lt_of_le (by decide) h)).toNat := accHalf_toNat image 2 _

/-- An append under the guard's bound keeps the accumulator within its memory (rule R41). -/
theorem accAppend_wf (cfg : Config) (m : Memory) (v : Byte) (h : m.length ≤ cfg.maxAcc) :
    Memory.wf cfg (accAppend m v) = true := by
  simp [Memory.wf]; omega

theorem accClear_wf (cfg : Config) : Memory.wf cfg accClear = true := by simp [Memory.wf]

theorem reset_memory_wf (cfg : Config) : Memory.wf cfg State.reset.acc = true := by
  simp [Memory.wf, State.reset]

theorem cellsFrom_address_ge (base : Nat) (m : Memory) :
    ∀ c ∈ cellsFrom base m, base ≤ c.1 := by
  induction m generalizing base with
  | nil => simp [cellsFrom]
  | cons b m ih =>
    intro c hc
    rcases List.mem_cons.1 hc with rfl | hc
    · exact Nat.le_refl base
    · exact Nat.le_of_succ_le (ih (base + 1) c hc)

theorem cellsFrom_rising (base : Nat) (m : Memory) :
    (cellsFrom base m).Pairwise (fun c d => c.1 < d.1) := by
  induction m generalizing base with
  | nil => exact List.Pairwise.nil
  | cons b m ih => exact List.Pairwise.cons (fun d hd => cellsFrom_address_ge _ _ d hd) (ih _)

/-- The cells of an accumulator stand in strictly rising address order, each address once. -/
theorem cells_rising (m : Memory) : m.cells.Pairwise (fun c d => c.1 < d.1) := cellsFrom_rising 0 m

theorem cellsFrom_injective (base : Nat) (m m' : Memory) (h : cellsFrom base m = cellsFrom base m') :
    m = m' := by
  induction m generalizing base m' with
  | nil => cases m' <;> simp_all [cellsFrom]
  | cons b m ih =>
    cases m' with
    | nil => simp [cellsFrom] at h
    | cons b' m' =>
      simp only [cellsFrom, List.cons.injEq, Prod.mk.injEq, true_and] at h
      rw [h.1, ih (base + 1) m' h.2]

/-- Equal cells are equal accumulators: the list is the canonical form. -/
theorem cells_injective (m m' : Memory) (h : m.cells = m'.cells) : m = m' := cellsFrom_injective 0 m m' h

@[simp] theorem slice_length (m : List Byte) (i j : Nat) :
    (slice m i j).length = min (j + 1 - i) (m.length - i) := by simp [slice]

theorem slice_empty (m : List Byte) (i j : Nat) (h : j < i) : slice m i j = [] := by
  simp [slice, Nat.sub_eq_zero_of_le (Nat.succ_le_of_lt h)]

end Sys2Proof.Machine
end

