-- ==== Sys2Proof/Laws/Deframer.lean ====
section
/-! SUPPORT. What one push can do, said once: the case lemmas of `pushByte`, and the fields no push touches. Later proofs
cite these and do not unfold the push. -/

namespace Sys2Proof.Machine

variable (cfg : Config) (b : Byte) (s : State)

/-- Everything a push can do (rules R111 to R117): the case, and the state it gives. -/
theorem pushByte_cases :
    (s.st = .idle ∧ b = cfg.startByte ∧
      pushByte cfg b s = respond .none { s with acc := [cfg.startByte], st := .inFrame }) ∨
    (s.st = .idle ∧ b ≠ cfg.startByte ∧ pushByte cfg b s = respond .none s) ∨
    (s.st ≠ .idle ∧ cfg.maxAcc < s.acc.length ∧
      pushByte cfg b s = finishFrame (.invalid .bufferOverflow) s) ∨
    (s.st = .escapePending ∧ s.acc.length ≤ cfg.maxAcc ∧
      pushByte cfg b s =
        respond .none { s with acc := accAppend s.acc (b ^^^ Config.escXor), st := .inFrame }) ∨
    (s.st = .inFrame ∧ s.acc.length ≤ cfg.maxAcc ∧ b = cfg.escByte ∧
      pushByte cfg b s = respond .none { s with st := .escapePending }) ∨
    (s.st = .inFrame ∧ s.acc.length ≤ cfg.maxAcc ∧ b ≠ cfg.escByte ∧ b = cfg.endByte ∧
      pushByte cfg b s = finishFrame (validate cfg (accAppend s.acc cfg.endByte)) s) ∨
    (s.st = .inFrame ∧ s.acc.length ≤ cfg.maxAcc ∧ b ≠ cfg.escByte ∧ b ≠ cfg.endByte ∧
      pushByte cfg b s = respond .none { s with acc := accAppend s.acc b }) := by
  cases hs : s.st with
  | idle => by_cases hb : b = cfg.startByte <;> simp [pushByte, pushIdle, hs, hb, accAppend, accClear]
  | inFrame =>
    by_cases hn : cfg.maxAcc < s.acc.length
    · simp [pushByte, overflows, hs, hn]
    · have hn' : s.acc.length ≤ cfg.maxAcc := by omega
      by_cases he : b = cfg.escByte
      · simp [pushByte, overflows, escapePending, pushPlain, hs, hn', he]
      · by_cases hd : b = cfg.endByte
        · subst hd
          simp [pushByte, overflows, escapePending, pushPlain, hs, hn', he]
        · simp [pushByte, overflows, escapePending, pushPlain, hs, hn', he, hd]
  | escapePending =>
    by_cases hn : cfg.maxAcc < s.acc.length
    · simp [pushByte, overflows, hs, hn]
    · have hn' : s.acc.length ≤ cfg.maxAcc := by omega
      simp [pushByte, overflows, escapePending, pushEscaped, hs, hn']

/-- No push touches the CRC register. -/
@[simp] theorem pushByte_crc : (pushByte cfg b s).crc = s.crc := by
  obtain ⟨-, -, e⟩ | ⟨-, -, e⟩ | ⟨-, -, e⟩ | ⟨-, -, e⟩ | ⟨-, -, -, e⟩ | ⟨-, -, -, -, e⟩ | ⟨-, -, -, -, e⟩ :=
    pushByte_cases cfg b s <;> rw [e] <;> rfl

/-- No push touches the commands still to come. -/
@[simp] theorem pushByte_pending : (pushByte cfg b s).pending = s.pending := by
  obtain ⟨-, -, e⟩ | ⟨-, -, e⟩ | ⟨-, -, e⟩ | ⟨-, -, e⟩ | ⟨-, -, -, e⟩ | ⟨-, -, -, -, e⟩ | ⟨-, -, -, -, e⟩ :=
    pushByte_cases cfg b s <;> rw [e] <;> rfl

theorem pushByte_idle_start (hs : s.st = .idle) :
    pushByte cfg cfg.startByte s = respond .none { s with acc := [cfg.startByte], st := .inFrame } := by
  simp [pushByte, pushIdle, hs, accAppend, accClear]

theorem pushByte_idle_drop (hs : s.st = .idle) (hb : b ≠ cfg.startByte) :
    pushByte cfg b s = respond .none s := by simp [pushByte, pushIdle, hs, hb]

theorem pushByte_overflow (hs : s.st ≠ .idle) (hn : cfg.maxAcc < s.acc.length) :
    pushByte cfg b s = finishFrame (.invalid .bufferOverflow) s := by simp [pushByte, overflows, hs, hn]

theorem pushByte_escaped (hs : s.st = .escapePending) (hn : s.acc.length ≤ cfg.maxAcc) :
    pushByte cfg b s =
      respond .none { s with acc := accAppend s.acc (b ^^^ Config.escXor), st := .inFrame } := by
  simp [pushByte, overflows, escapePending, pushEscaped, hs, hn]

theorem pushByte_escape (hs : s.st = .inFrame) (hn : s.acc.length ≤ cfg.maxAcc) :
    pushByte cfg cfg.escByte s = respond .none { s with st := .escapePending } := by
  simp [pushByte, overflows, escapePending, pushPlain, hs, hn]

theorem pushByte_end (hs : s.st = .inFrame) (hn : s.acc.length ≤ cfg.maxAcc)
    (he : cfg.endByte ≠ cfg.escByte) :
    pushByte cfg cfg.endByte s = finishFrame (validate cfg (accAppend s.acc cfg.endByte)) s := by
  simp [pushByte, overflows, escapePending, pushPlain, hs, hn, he]

theorem pushByte_other (hs : s.st = .inFrame) (hn : s.acc.length ≤ cfg.maxAcc) (he : b ≠ cfg.escByte)
    (hd : b ≠ cfg.endByte) :
    pushByte cfg b s = respond .none { s with acc := accAppend s.acc b } := by
  simp [pushByte, overflows, escapePending, pushPlain, hs, hn, he, hd]

end Sys2Proof.Machine
end

