-- ==== Sys2Proof/Laws/PerInstr.lean ====
section
/-! SUPPORT. Statements about every operation as syntax, one lemma a constructor. -/

/-- The operation is well formed, and the word it is encoded to selects the row of the operation table that bears its
mnemonic (spec/30_encoding.md rule R72). -/
def Sys2Proof.Laws.TableRow.Statement (i : Sys2Proof.Instr) : Prop :=
  i.wf = true ∧
    ∃ row ∈ Sys2Proof.opcodeTable, row.mnemonic = i.mnemonic ∧ row.selects (Sys2Proof.encode i) = true

theorem Sys2Proof.Laws.TableRow.crcInit : Sys2Proof.Laws.TableRow.Statement .crcInit :=
  ⟨rfl, ⟨"CRC.INIT", 0x000, 0x7FF⟩, by decide, rfl, by decide⟩

theorem Sys2Proof.Laws.TableRow.crcByte (b : Sys2Proof.Byte) :
    Sys2Proof.Laws.TableRow.Statement (.crcByte b) :=
  ⟨rfl, ⟨"CRC.BYTE", 0x100, 0x700⟩, by decide, rfl, by revert b; decide⟩

theorem Sys2Proof.Laws.TableRow.crcRead : Sys2Proof.Laws.TableRow.Statement .crcRead :=
  ⟨rfl, ⟨"CRC.READ", 0x200, 0x7FF⟩, by decide, rfl, by decide⟩

theorem Sys2Proof.Laws.TableRow.dfPush (b : Sys2Proof.Byte) :
    Sys2Proof.Laws.TableRow.Statement (.dfPush b) :=
  ⟨rfl, ⟨"DF.PUSH", 0x300, 0x700⟩, by decide, rfl, by revert b; decide⟩

theorem Sys2Proof.Laws.TableRow.dfReset : Sys2Proof.Laws.TableRow.Statement .dfReset :=
  ⟨rfl, ⟨"DF.RESET", 0x400, 0x7FF⟩, by decide, rfl, by decide⟩
end

