-- ==== Sys2Proof/Laws/Pseudo.lean ====
section
/-! SUPPORT. The small laws of the assembler text and of the pseudo-operations. -/

namespace Sys2Proof.Machine

/-- A written digit is read as the number it was written for. -/
theorem digitValue_hexDigit : ∀ n < 16, digitValue (hexDigit n) = some n := by decide

/-- A written byte operand is read as that byte. -/
theorem readHexByte_hexByte (b : Byte) : readHexByte (hexByte b) = some b := by
  have hb : b.toNat < 256 := b.isLt
  simp only [hexByte, readHexByte, digitValue_hexDigit _ (show b.toNat / 16 < 16 by omega),
    digitValue_hexDigit _ (show b.toNat % 16 < 16 by omega), Nat.div_add_mod, BitVec.ofNat_toNat, BitVec.setWidth_eq]

theorem asciiCode_of_lt (c : Char) (h : c.toNat < 128) : asciiCode c = some (BitVec.ofNat 8 c.toNat) := by
  simp [asciiCode, h]

@[simp] theorem dfFeed_nil : dfFeed [] = [] := rfl
@[simp] theorem dfFeed_cons (b : Byte) (bytes : List Byte) : dfFeed (b :: bytes) = .dfPush b :: dfFeed bytes := rfl
@[simp] theorem dfFeed_append (bytes bytes' : List Byte) :
    dfFeed (bytes ++ bytes') = dfFeed bytes ++ dfFeed bytes' := List.map_append
@[simp] theorem dfFeed_length (bytes : List Byte) : (dfFeed bytes).length = bytes.length := List.length_map _

end Sys2Proof.Machine
end

