-- ==== Sys2Proof/Laws/Step.lean ====
section
/-! SUPPORT. Small laws of the presenting of commands, of a list of operations in order and of feeding bytes. -/

namespace Sys2Proof.Machine

@[simp] theorem presentCommand_none (s : State) (h : s.pending = []) : presentCommand s = none := by
  simp [presentCommand, h]

@[simp] theorem presentCommand_some (s : State) (w : CmdWord) (q : List CmdWord) (h : s.pending = w :: q) :
    presentCommand s = some (w, { s with pending := q }) := by
  simp [presentCommand, h]

@[simp] theorem exec_dfPush (b : Byte) (s : State) :
    exec (.dfPush b) s = .next (pushByte Config.default b s) := rfl

@[simp] theorem execAll_nil (s : State) : execAll [] s = .next s := rfl

theorem execAll_cons (i : Instr) (ops : List Instr) (s t : State) (h : exec i s = .next t) :
    execAll (i :: ops) s = execAll ops t := by simp only [execAll, h]

/-- A list of operations in two parts: the second runs on what the first leaves. -/
theorem execAll_append (ops ops' : List Instr) (s t : State) (h : execAll ops s = .next t) :
    execAll (ops ++ ops') s = execAll ops' t := by
  induction ops generalizing s with
  | nil => cases h; rfl
  | cons i ops ih =>
    simp only [execAll, List.cons_append] at h ⊢
    cases hi : exec i s with
    | next u => rw [hi] at h; exact ih u h
    | fault r => rw [hi] at h; cases h
    | refused r => rw [hi] at h; cases h

@[simp] theorem pushAll_nil (cfg : Config) (s : State) : pushAll cfg [] s = s := rfl

theorem pushAll_append (cfg : Config) (bytes bytes' : List Byte) (s : State) :
    pushAll cfg (bytes ++ bytes') s = pushAll cfg bytes' (pushAll cfg bytes s) := by
  induction bytes generalizing s with
  | nil => rfl
  | cons b bytes ih => exact ih (pushByte cfg b s)

/-- Feeding bytes by operations is pushing them at the source's constants. -/
theorem execAll_dfFeed (bytes : List Byte) (s : State) :
    execAll (dfFeed bytes) s = .next (pushAll Config.default bytes s) := by
  induction bytes generalizing s with
  | nil => rfl
  | cons b bytes ih => exact ih (pushByte Config.default b s)

/-- What holds of the start and is kept by every step holds of every state reached. -/
theorem reaches_induction (P : State → Prop) (keep : ∀ t u, P t → step t = .next u → P u) (s t : State)
    (hs : P s) (h : Reaches s t) : P t := by
  induction h with
  | start => exact hs
  | step t u _ hstep ih => exact keep t u ih hstep

end Sys2Proof.Machine
end

