-- ==== Sys2Proof/Laws/Validate.lean ====
section
/-! SUPPORT. What the validation pass can answer, said once: each answer with what it means for the image. -/

namespace Sys2Proof.Machine

/-- Everything `VALIDATE` can answer, in the order of its steps (rules R130 to R136). -/
theorem validate_cases (cfg : Config) (image : Memory) :
    (image.length < Config.minFrame ∧ validate cfg image = .invalid .tooSmall) ∨
    ∃ h : Config.minFrame ≤ image.length,
      (markersOk cfg image h = false ∧ validate cfg image = .invalid .invalidMarkers) ∨
      (markersOk cfg image h = true ∧ image.length ≠ lenField image h + Config.minFrame ∧
        validate cfg image = .invalid .lengthMismatch) ∨
      (markersOk cfg image h = true ∧ image.length = lenField image h + Config.minFrame ∧
        crc16 (crcDomain image) ≠ chkField image h ∧ validate cfg image = .invalid .crcMismatch) ∨
      (markersOk cfg image h = true ∧ image.length = lenField image h + Config.minFrame ∧
        crc16 (crcDomain image) = chkField image h ∧
        validate cfg image = .valid (messageId image h) (payloadField image)) := by
  by_cases small : image.length < Config.minFrame
  · exact .inl ⟨small, dif_pos small⟩
  · refine .inr ⟨Nat.le_of_not_lt small, ?_⟩
    unfold validate
    simp only [dif_neg small]
    by_cases hm : markersOk cfg image (Nat.le_of_not_lt small) = false
    · exact .inl ⟨hm, by simp [hm]⟩
    · have hm' : markersOk cfg image (Nat.le_of_not_lt small) = true := by simpa using hm
      by_cases hl : image.length = lenField image (Nat.le_of_not_lt small) + Config.minFrame
      · by_cases hc : crc16 (crcDomain image) = chkField image (Nat.le_of_not_lt small)
        · exact .inr (.inr (.inr ⟨hm', hl, hc, by simp [hm', ← hl, hc]⟩))
        · exact .inr (.inr (.inl ⟨hm', hl, hc, by simp [hm', ← hl, hc]⟩))
      · exact .inr (.inl ⟨hm', hl, by simp [hm', hl]⟩)

/-- The image's first and last byte, when the markers are right. -/
theorem markersOk_iff (cfg : Config) (image : Memory) (h : Config.minFrame ≤ image.length) :
    markersOk cfg image h = true ↔
      accByte? image 0 = some cfg.startByte ∧ accByte? image (image.length - 1) = some cfg.endByte := by
  have h0 : 0 < image.length := Nat.lt_of_lt_of_le (by decide) h
  simp [markersOk, accByte?, accRead, List.getElem?_eq_getElem h0,
    List.getElem?_eq_getElem (show image.length - 1 < image.length by omega)]

end Sys2Proof.Machine
end

