-- ==== Sys2Proof/Laws/Wire.lean ====
section
/-! SUPPORT. The small laws of stuffing, of unstuffing and of the bytes of a half-word. -/

namespace Sys2Proof.Machine

@[simp] theorem stuff_nil (cfg : Config) : stuff cfg [] = [] := rfl

theorem stuff_cons (cfg : Config) (b : Byte) (p : List Byte) :
    stuff cfg (b :: p) = stuffByte cfg b ++ stuff cfg p := by simp [stuff]

@[simp] theorem unstuffFrom_nil (cfg : Config) (pending : Bool) : unstuffFrom cfg pending [] = ([], pending) := by
  cases pending <;> rfl

theorem unstuffFrom_escape (cfg : Config) (w : List Byte) :
    unstuffFrom cfg false (cfg.escByte :: w) = unstuffFrom cfg true w := by simp [unstuffFrom]

theorem unstuffFrom_plain (cfg : Config) (b : Byte) (w : List Byte) (h : b ≠ cfg.escByte) :
    unstuffFrom cfg false (b :: w) = (b :: (unstuffFrom cfg false w).1, (unstuffFrom cfg false w).2) := by
  simp [unstuffFrom, h]

@[simp] theorem leBytes_length (n : Nat) : (leBytes n).length = 2 := rfl

/-- The two bytes of a half-word, read low byte first, give it back. -/
theorem leBytes_read (n : Nat) (h : n < 65536) :
    (BitVec.ofNat 8 (n % 256)).toNat + 256 * (BitVec.ofNat 8 (n / 256)).toNat = n := by
  simp; omega

@[simp] theorem frameBody_length (id : Byte) (n : Nat) (bytes : List Byte) :
    (frameBody id n bytes).length = bytes.length + 3 := by simp [frameBody]; omega

end Sys2Proof.Machine
end

