-- ==== Sys2Proof/Tests/Slice0.lean ====
section
/-! SUPPORT. The model's own tests. Expected values are those of spec/95_test_vectors.md (V1 to V27, P1 to P5) and of the
worked examples in the rules; none is the model's own answer. The second half gives, for every statement that has
hypotheses, a concrete case that meets them. -/

namespace Sys2Proof.Tests

open Sys2Proof Sys2Proof.Machine

set_option maxRecDepth 20000

/-- A state of the block with nothing on the caller's side. -/
def mk (crc : Half) (st : RxState) (acc : Memory) : State :=
  { crc := crc, st := st, acc := acc, pending := [], responses := [] }

/-- The block's state and the responses after an outcome, where there is a next state. -/
def seen : Host.Outcome State Fault Refusal → Option ((Half × RxState × Memory) × List Response)
  | .next t => some (t.block, t.responses)
  | .fault _ => none
  | .refused _ => none

/-! ## Well-formedness: each check refuses an ill-formed term -/

theorem test_wf_refuses_start_equal_end : ({ Config.default with endByte := 0x7E } : Config).wf = false := by decide
theorem test_wf_refuses_start_equal_escape : ({ Config.default with escByte := 0x7E } : Config).wf = false := by decide
theorem test_wf_refuses_end_equal_escape : ({ Config.default with escByte := 0x7D } : Config).wf = false := by decide
theorem test_wf_refuses_zero_threshold : ({ Config.default with maxAcc := 0 } : Config).wf = false := by decide
theorem test_wf_refuses_reserved_op : (CmdFields.mk 0b101 0x00).wf = false := by decide
theorem test_wf_refuses_data_without_operand : (CmdFields.mk 0b000 0x01).wf = false := by decide
theorem test_wf_accepts_every_encoded_operation (b : Byte) :
    [Instr.crcInit, .crcByte b, .crcRead, .dfPush b, .dfReset].all (fun i => i.wf && (encodeFields i).wf) = true := by
  revert b; decide
theorem test_memory_wf_refuses_too_long :
    Memory.wf { Config.default with maxAcc := 2 } [0x7E, 0x01, 0x02, 0x03] = false := by decide

/-! ## Encoding: rule R72's words, bit by bit -/

theorem test_decode_crc_init : decode 0b00000000000 = .instr .crcInit := by decide
theorem test_decode_crc_byte : decode 0b00100110001 = .instr (.crcByte 0x31) := by decide
theorem test_decode_crc_read : decode 0b01000000000 = .instr .crcRead := by decide
theorem test_decode_df_push : decode 0b01101111101 = .instr (.dfPush 0x7D) := by decide
theorem test_decode_df_reset : decode 0b10000000000 = .instr .dfReset := by decide
theorem test_encode_words :
    [encode .crcInit, encode (.crcByte 0x39), encode .crcRead, encode (.dfPush 0x7E), encode .dfReset] =
      [0x000, 0x139, 0x200, 0x37E, 0x400] := by decide
theorem test_decode_illegal :
    [decode 0x500, decode 0x001, decode 0x201, decode 0x4FF, decode 0x7FF] =
      [.illegal (.reservedOp 0b101), .illegal (.nonzeroData 0b000 0x01), .illegal (.nonzeroData 0b010 0x01),
       .illegal (.nonzeroData 0b100 0xFF), .illegal (.reservedOp 0b111)] := by decide
/-- Rule R74 counts 768 and 765 illegal words. -/
theorem test_illegal_count :
    (List.range 2048).countP (fun w => (decodeTableWord 16 w).isNone) = 768 + 765 := by decide
theorem test_decode_table_word : decodeTableWord 16 0x37E = some (.dfPush 0x7E) := by decide
theorem test_decode_table_word_too_wide : decodeTableWord 16 0x800 = none := by decide
theorem test_table_rows_select_own_words :
    opcodeTable.map (fun r => (r.mnemonic, (decode r.matchBits).instr?.map Instr.mnemonic)) =
      [("CRC.INIT", some "CRC.INIT"), ("CRC.BYTE", some "CRC.BYTE"), ("CRC.READ", some "CRC.READ"),
       ("DF.PUSH", some "DF.PUSH"), ("DF.RESET", some "DF.RESET")] := by decide
theorem test_mnemonic_characters :
    [Instr.crcInit, .crcByte 0, .crcRead, .dfPush 0, .dfReset].all
      (fun i => mnemonicChars i == i.mnemonic.toList) = true := by decide
/-- Rule R79's example, with a comment. -/
theorem test_assembler_line : readLine "DF.PUSH 0x7E ; frame begins".toList = some (.dfPush 0x7E) := by decide
/-- The suggested encoding of rule R22. -/
theorem test_receiver_state_codes :
    [RxState.idle, .inFrame, .escapePending].map RxState.code = [0b00, 0b01, 0b11] := by decide
/-- Rule R78: kind 2, id, 11-bit length, payload. -/
theorem test_response_word_of_valid :
    (Response.valid 0x10 [0x48, 0x69]).fields = [⟨3, 2⟩, ⟨8, 0x10⟩, ⟨11, 2⟩, ⟨8, 0x48⟩, ⟨8, 0x69⟩] := by decide

/-! ## Operations -/

theorem test_crc_init_example : seen (exec .crcInit (mk 0x29B1 .idle [])) =
    some ((0xFFFF, .idle, []), [.none]) := by decide
/-- V2, and rule R93's worked example. -/
theorem test_crc_byte_example : seen (exec (.crcByte 0x31) State.reset) =
    some ((0xC782, .idle, []), [.none]) := by decide
theorem test_crc_read_example : seen (exec .crcRead State.reset) =
    some ((0xFFFF, .idle, []), [.crc 0xFFFF]) := by decide
/-- Rule R116's worked example (V10). -/
theorem test_push_end_example :
    seen (exec (.dfPush 0x7D) (mk 0x1234 .inFrame [0x7E, 0x01, 0x00, 0x00, 0xAC, 0xFB])) =
      some ((0x1234, .idle, []), [.valid 0x01 []]) := by decide
/-- Rule R114's worked example. -/
theorem test_push_escaped_example :
    seen (exec (.dfPush 0x5E) (mk 0x1234 .escapePending [0x7E, 0x02])) =
      some ((0x1234, .inFrame, [0x7E, 0x02, 0x7E]), [.none]) := by decide
/-- Rule R119's worked example. -/
theorem test_df_reset_example :
    seen (exec .dfReset (mk 0xC782 .escapePending [0x7E, 0x01, 0x02])) =
      some ((0xC782, .idle, []), [.none]) := by decide
/-- V23: with `MAX_ACC = 8` an END that meets nine bytes is answered "buffer overflow". -/
theorem test_push_threshold_is_a_parameter :
    (pushByte { Config.default with maxAcc := 8 } 0x7D
      (mk 0xFFFF .inFrame [0x7E, 0x10, 0x03, 0x00, 0x48, 0x69, 0x21, 0xBB, 0xCB])).responses =
      [.invalid .bufferOverflow] := by decide
/-- The word of P2's third line runs as the first operation after reset. -/
theorem test_step_after_reset : seen (step (State.reset.withFetchWord 16 0x37E)) =
    some ((0xFFFF, .inFrame, [0x7E]), [.none]) := by decide
theorem test_step_illegal_word : seen (step (State.reset.withFetchWord 16 0x500)) =
    some ((0xFFFF, .idle, []), [.illegal]) := by decide

/-! ## Functions -/

/-- V5. -/
theorem test_crc_update_corners :
    [crc16Update 0x0000 0x01, crc16Update 0x0000 0x80, crc16Update 0x8000 0x00, crc16Update 0x0001 0x00,
     crc16Update 0xFFFF 0xFF, crc16Update 0x1234 0x56, crc16Update 0xABCD 0xEF, crc16Update 0xB9F9 0xB9] =
      [0x1021, 0x9188, 0x9188, 0x0100, 0xFF00, 0x3C40, 0xC540, 0xF900] := by decide
/-- V6. -/
theorem test_crc16_short :
    [crc16 [0x00, 0x00], crc16 [0x01, 0x00, 0x00], crc16 [0x10, 0x02, 0x00, 0x48, 0x69]] =
      [0x1D0F, 0xFBAC, 0x81D4] := by decide
/-- V11 and V19 rows a, b, c, d, i, j. -/
theorem test_validate_images :
    ([[0x7E, 0x10, 0x02, 0x00, 0x48, 0x69, 0xD4, 0x81, 0x7D], [0x7E, 0x7D], [0x7E, 0x01, 0x00, 0x00, 0x00, 0x7D],
      [0x7E, 0x01, 0x05, 0x00, 0x00, 0x00, 0x7D], [0x7E, 0x01, 0x00, 0x00, 0x00, 0x00, 0x7D],
      [0x7E, 0x10, 0x03, 0x00, 0x48, 0x69, 0xD4, 0x81, 0x7D],
      [0x7E, 0x11, 0x02, 0x00, 0x48, 0x69, 0xD4, 0x81, 0x7D]] : List (List Byte)).map (validate Config.default) =
      [.valid 0x10 [0x48, 0x69], .invalid .tooSmall, .invalid .tooSmall, .invalid .lengthMismatch,
       .invalid .crcMismatch, .invalid .lengthMismatch, .invalid .crcMismatch] := by decide
/-- V13. -/
theorem test_frame_of_the_source : frame Config.default 0x02 [0x11, 0x7E, 0x22] =
    some [0x7E, 0x02, 0x03, 0x00, 0x11, 0x7C, 0x5E, 0x22, 0x27, 0xB6, 0x7D] := by decide
/-- V14. -/
theorem test_wire_rx : wireRx Config.default 0x02 [0x11, 0x7E, 0x22] =
    some [0x7E, 0x02, 0x03, 0x00, 0x11, 0x7C, 0x5E, 0x22, 0xA7, 0x30, 0x7D] := by decide
/-- V24 rows b and f: the byte after ESCAPE is not checked. -/
theorem test_unstuff_corners :
    [unstuff Config.default [0x7C, 0x7C, 0x7C, 0x7E], unstuff Config.default [0x7C, 0x41]] =
      [([0x5C, 0x5E], false), ([0x61], false)] := by decide

/-! ## Witnesses: each meets the hypotheses of the statement it names -/

/-- The state of V10 before its END. -/
def beforeEnd : State := mk 0xFFFF .inFrame [0x7E, 0x01, 0x00, 0x00, 0xAC, 0xFB]

theorem beforeEnd_inv (cfg : Config) (hs : cfg.startByte = 0x7E) (hn : 5 ≤ cfg.maxAcc) : Inv cfg beforeEnd :=
  ⟨by simp [Memory.wf, beforeEnd, mk]; omega, by decide, fun _ => by rw [hs]; decide,
    fun h => absurd h (by decide)⟩

/-- A state with an escape pending that meets the invariant. -/
def escaping : State := mk 0xFFFF .escapePending [0x7E, 0x02]

theorem escaping_inv : Inv Config.default escaping :=
  ⟨by decide, by decide, fun h => absurd h (by decide), fun _ => ⟨by decide, by decide⟩⟩

theorem reset_inv : Inv Config.default State.reset :=
  ⟨by decide, fun _ => rfl, fun h => absurd h (by decide), fun h => absurd h (by decide)⟩

/-- A state in a frame with `n` bytes in the accumulator. -/
def filled (st : RxState) (n : Nat) : State := mk 0xFFFF st (0x7E :: List.replicate (n - 1) 0x55)

@[simp] theorem filled_length (st : RxState) (n : Nat) (h : 1 ≤ n) : (filled st n).acc.length = n := by
  simp [filled, mk]; omega

theorem witness_DecoderFollowsOperationTable :
    decode 0x131 = .instr (.crcByte 0x31) ∧ decode 0x3FF = .instr (.dfPush 0xFF) := by decide

theorem witness_IllegalWordChangesNoState :
    ({ State.reset with pending := [0x500] } : State).pending = 0x500 :: [] ∧
      decode 0x500 = .illegal (.reservedOp 0b101) := by decide

/-- A text of ASCII characters, the last of them the greatest. -/
theorem witness_PseudoOperationsRun : ∀ c ∈ "Hi!\x7f".toList, c.toNat < 128 := by simp

theorem witness_ResponseWordTellsResponsesApart :
    (Response.valid 0x10 [0x48, 0x69]).fields = (Response.valid 0x10 ([0x48] ++ [0x69])).fields := rfl

theorem witness_StepRunsTheDecodedOperation :
    ({ State.reset with pending := [0x37E, 0x400] } : State).pending = 0x37E :: [0x400] ∧
      decode 0x37E = .instr (.dfPush 0x7E) := by decide

theorem witness_StepWithoutCommandHoldsTheState : State.reset.pending = [] := rfl

theorem witness_OneResponseOfTheNamedKind :
    Inv Config.default beforeEnd ∧ exec (.dfPush 0x7D) beforeEnd = .next (pushByte Config.default 0x7D beforeEnd) ∧
      (pushByte Config.default 0x7D beforeEnd).responses = beforeEnd.responses ++ [.valid 0x01 []] ∧
      ({ State.reset with pending := [0x001] } : State).pending = 0x001 :: [] ∧
      decode 0x001 = .illegal (.nonzeroData 0b000 0x01) :=
  ⟨beforeEnd_inv _ rfl (by decide), rfl, by decide, rfl, by decide⟩

theorem witness_CallerSideIsNeverRead :
    exec .crcRead State.reset = .next { State.reset with responses := [.crc 0xFFFF] } := rfl

theorem witness_UnitsShareNoState :
    exec (.crcByte 0x31) beforeEnd = .next (respond .none { beforeEnd with crc := 0xC782 }) ∧
      exec (.crcByte 0x31) State.reset = .next (respond .none { State.reset with crc := 0xC782 }) ∧
      beforeEnd.crc = State.reset.crc ∧
      exec .dfReset beforeEnd = .next (respond .none { beforeEnd with st := .idle, acc := [] }) ∧
      exec .dfReset { beforeEnd with crc := 0 } = .next (respond .none (mk 0 .idle [])) := ⟨rfl, rfl, rfl, rfl, rfl⟩

theorem witness_StepKeepsTheInvariant :
    Inv Config.default { beforeEnd with pending := [0x37D] } ∧
      step { beforeEnd with pending := [0x37D] } = .next (respond (.valid 0x01 []) (mk 0xFFFF .idle [])) ∧
      Inv { Config.default with maxAcc := 8 } beforeEnd :=
  ⟨⟨by decide, by decide, fun _ => by decide, fun h => absurd h (by decide)⟩, by rfl,
    beforeEnd_inv _ rfl (by decide)⟩

theorem witness_CrcInitSetsTheInitialValue :
    exec .crcInit (mk 0x29B1 .idle []) = .next (respond .none State.reset) ∧
      exec .crcInit (respond .none State.reset) = .next (respond .none (respond .none State.reset)) := ⟨rfl, rfl⟩

theorem witness_StreamingCrcEqualsTheFunction :
    ∀ i ∈ ([.crcByte 0x31, .dfPush 0x7E, .crcRead, .crcByte 0x32] : List Instr), i ≠ .crcInit := by decide

theorem witness_CrcResidueNeedsTheHighByteFirst :
    ((0xFF : Byte) ++ (0xFF : Byte) : Half) = crc16 [] ∧ ((0xE1 : Byte) ++ (0xF0 : Byte) : Half) = crc16 [0x00] := by
  decide

/-- One state and byte for each of the eight rows of rule R118, the unreachable fourth among them, with lengths on both
sides of the threshold. -/
theorem witness_PushFollowsTheTransitionTable :
    ((pushTable 0x7E State.reset)[0]?.map (·.1) = some true) ∧ ((pushTable 0x7D State.reset)[1]?.map (·.1) = some true) ∧
      ((pushTable 0x7D (filled .inFrame 1025))[2]?.map (·.1) = some true) ∧
      ((pushTable 0x7D (filled .escapePending 1025))[3]?.map (·.1) = some true) ∧
      ((pushTable 0x7D (filled .escapePending 1024))[4]?.map (·.1) = some true) ∧
      ((pushTable 0x7C (filled .inFrame 1024))[5]?.map (·.1) = some true) ∧
      ((pushTable 0x7D (filled .inFrame 1024))[6]?.map (·.1) = some true) ∧
      ((pushTable 0x7E (filled .inFrame 1024))[7]?.map (·.1) = some true) := by
  refine ⟨rfl, rfl, ?_, ?_, ?_, ?_, ?_, ?_⟩ <;> simp [pushTable] <;> rfl

theorem witness_OverflowGuardFiresAboveTheThreshold :
    ((filled .inFrame 1025).st ≠ .idle ∧ 1024 < (filled .inFrame 1025).acc.length) ∧
      (State.reset.st = .idle ∧ (filled .inFrame 1024).acc.length ≤ 1024) ∧
      (Inv Config.default escaping ∧ escaping.st = .escapePending) ∧
      ((filled .inFrame 1024).st = .inFrame ∧ (filled .inFrame 1024).acc.length = 1024) :=
  ⟨⟨by decide, by simp⟩, ⟨rfl, by simp⟩, ⟨escaping_inv, rfl⟩, rfl, by simp⟩

theorem witness_DfResetReturnsToIdle :
    Inv Config.default State.reset ∧ State.reset.st = .idle ∧
      exec .dfReset State.reset = .next (respond .none State.reset) := ⟨reset_inv, rfl, rfl⟩

/-- The seven cases of a push, at the lengths where they meet; and a push has a next state. -/
theorem witness_AccumulatorBytesChangeOnlyByAppendAndClear :
    (∀ (b : Byte) (s : State), exec (.dfPush b) s = .next (pushByte Config.default b s)) ∧
      State.reset.st = .idle ∧ (0x7D : Byte) ≠ 0x7E ∧
      ((filled .inFrame 1025).st ≠ .idle ∧ 1024 < (filled .inFrame 1025).acc.length) ∧
      ((filled .escapePending 1024).st = .escapePending ∧ (filled .escapePending 1024).acc.length ≤ 1024) ∧
      ((filled .inFrame 1024).st = .inFrame ∧ (filled .inFrame 1024).acc.length ≤ 1024) ∧
      (0x7E : Byte) ≠ 0x7C ∧ (0x7E : Byte) ≠ 0x7D ∧
      exec (.crcByte 0x31) State.reset = .next (respond .none { State.reset with crc := 0xC782 }) ∧
      exec .dfReset beforeEnd = .next (respond .none { beforeEnd with st := .idle, acc := [] }) :=
  ⟨fun _ _ => rfl, rfl, by decide, ⟨by decide, by simp⟩, ⟨rfl, by simp⟩, ⟨rfl, by simp⟩, by decide, by decide,
    rfl, rfl⟩

theorem witness_ResultsOnlyFromTheGuardOrAnEnd :
    exec (.dfPush 0x7D) beforeEnd = .next (respond (.valid 0x01 []) (mk 0xFFFF .idle [])) := by rfl

theorem witness_AnyResultReturnsToIdleAndNothingElse :
    exec (.dfPush 0x7D) beforeEnd = .next (pushByte Config.default 0x7D beforeEnd) ∧
      (pushByte Config.default 0x7D beforeEnd).responses = beforeEnd.responses ++ [.valid 0x01 []] ∧
      (Response.valid 0x01 [] ≠ .none) := ⟨rfl, by decide, by decide⟩

theorem witness_InvalidMarkersIsNeverAnswered :
    Inv Config.default beforeEnd ∧
      exec (.dfPush 0x7D) beforeEnd = .next (pushByte Config.default 0x7D beforeEnd) :=
  ⟨beforeEnd_inv _ rfl (by decide), rfl⟩

/-- The bound is reached: with `MAX_ACC = 6` the empty payload goes through. -/
theorem witness_PayloadIsBoundedByTheThreshold :
    Inv { Config.default with maxAcc := 6 } beforeEnd ∧
      (pushByte { Config.default with maxAcc := 6 } 0x7D beforeEnd).responses =
        beforeEnd.responses ++ [.valid 0x01 []] := ⟨beforeEnd_inv _ rfl (by decide), by decide⟩

/-- An image of six bytes, one with a wrong marker, and one that has all the bytes the third clause names. -/
theorem witness_ValidateRunsItsStepsInOrder :
    ([0x7E, 0x01, 0x00, 0x00, 0x00, 0x7D] : List Byte).length < 7 ∧
      (7 ≤ ([0x7F, 0x01, 0x00, 0x00, 0xAC, 0xFB, 0x7D] : List Byte).length ∧
        ([0x7F, 0x01, 0x00, 0x00, 0xAC, 0xFB, 0x7D] : List Byte)[0]? ≠ some 0x7E) ∧
      (fun image : List Byte => 7 ≤ image.length ∧ image[0]? = some 0x7E ∧ image[image.length - 1]? = some 0x7D ∧
        image[1]? = some 0x01 ∧ image[2]? = some 0x00 ∧ image[3]? = some 0x00 ∧
        image[image.length - 3]? = some 0xAC ∧ image[image.length - 2]? = some 0xFB)
        [0x7E, 0x01, 0x00, 0x00, 0xAC, 0xFB, 0x7D] := by decide

/-- A 0x7E-free stream with a length field that does not fit it, and one that ends in a lone ESCAPE (V18). -/
theorem witness_FirstUnescapedEndCompletesTheFrame :
    State.reset.st = .idle ∧ State.reset.acc = [] ∧ noPlainEnd Config.default [0x21, 0x00, 0x00, 0x6A] = true ∧
      unstuff Config.default [0x21, 0x00, 0x00, 0x6A] = ([0x21, 0x00, 0x00, 0x6A], false) ∧
      noPlainEnd Config.default [0x3C, 0x00, 0x00, 0x58, 0x7C] = true ∧
      unstuff Config.default [0x3C, 0x00, 0x00, 0x58, 0x7C] = ([0x3C, 0x00, 0x00, 0x58], true) := by decide

theorem witness_FreshFrameIsAcceptedAfterOverflow :
    State.reset.st = .idle ∧ State.reset.acc = [] ∧ (List.replicate 1024 (0x55 : Byte)).length = 1024 ∧
      (∀ x ∈ List.replicate 1024 (0x55 : Byte), x ≠ 0x7C ∧ x ≠ 0x7D) ∧
      (∀ x ∈ ([0x7D, 0x55] : List Byte), x ≠ 0x7E) ∧ ([] : List Byte).length ≤ 1018 :=
  ⟨rfl, rfl, by simp, fun x hx => by rw [List.eq_of_mem_replicate hx]; decide, by decide, by simp⟩

/-- The message id, and the first and last byte the statement reaches in a frame with a payload. -/
theorem witness_SingleBitChangeIsCrcMismatch :
    (fun image : List Byte => validate Config.default image = .valid 0x10 [0x48, 0x69] ∧
      7 < 8 ∧ (1 = 1 ∨ 4 ≤ 1 ∧ 1 + 2 ≤ image.length) ∧ (4 = 1 ∨ 4 ≤ 4 ∧ 4 + 2 ≤ image.length) ∧
      (7 = 1 ∨ 4 ≤ 7 ∧ 7 + 2 ≤ image.length))
      [0x7E, 0x10, 0x02, 0x00, 0x48, 0x69, 0xD4, 0x81, 0x7D] := by decide

theorem witness_AccumulatorIsTheUnstuffedStream :
    State.reset.st = .idle ∧ noPlainEnd Config.default [0x11, 0x7C, 0x7D, 0x7C] = true ∧
      (∀ k < ([0x11, 0x7C, 0x7D, 0x7C] : List Byte).length,
        (unstuff Config.default (([0x11, 0x7C, 0x7D, 0x7C] : List Byte).take k)).1.length + 1 ≤ 1024) ∧
      (List.replicate 1024 (0x7C : Byte)).length ≤ 1024 := ⟨rfl, by decide, by decide, by simp⟩

theorem witness_WireRxFramesAreAccepted :
    (List.replicate 1018 (0x7D : Byte)).length ≤ 1018 ∧ State.reset.st = .idle ∧ State.reset.acc = [] :=
  ⟨by simp, rfl, rfl⟩

/-- V10's frame. -/
theorem witness_EscapeFreeFramesAreAccepted :
    ([] : List Byte).length ≤ 1018 ∧
      frame Config.default 0x01 [] = some [0x7E, 0x01, 0x00, 0x00, 0xAC, 0xFB, 0x7D] ∧
      (∀ b ∈ ([0x7E, 0x01, 0x00, 0x00, 0xAC, 0xFB, 0x7D] : List Byte).tail.dropLast,
        Config.default.isSpecial b = false) ∧ State.reset.st = .idle ∧ State.reset.acc = [] := by decide

/-- V13's frame. -/
theorem witness_StuffedSourceFramesAreCrcMismatch :
    ([0x11, 0x7E, 0x22] : List Byte).length ≤ 1018 ∧
      frame Config.default 0x02 [0x11, 0x7E, 0x22] =
        some [0x7E, 0x02, 0x03, 0x00, 0x11, 0x7C, 0x5E, 0x22, 0x27, 0xB6, 0x7D] ∧
      (∃ b ∈ ([0x11, 0x7E, 0x22] : List Byte), Config.default.isSpecial b = true) ∧
      Config.default.isSpecial 0x02 = false ∧
      (∀ b ∈ leBytes 3, Config.default.isSpecial b = false) ∧
      (∀ b ∈ leBytes (crc16 (frameBody 0x02 3 (stuff Config.default [0x11, 0x7E, 0x22]))).toNat,
        Config.default.isSpecial b = false) ∧ State.reset.st = .idle ∧ State.reset.acc = [] := by decide

/-- V18's harmless frame, with a START in its checksum. -/
theorem witness_StreamAgreesWithWholeBuffer :
    (fun B : List Byte => B.length ≤ 1025 ∧ B[0]? = some 0x7E ∧ B.getLast? = some 0x7D ∧
      ∀ b ∈ B.tail.dropLast, b ≠ 0x7C ∧ b ≠ 0x7D) [0x7E, 0x06, 0x00, 0x00, 0x3C, 0x7E, 0x7D] ∧
      State.reset.st = .idle ∧ State.reset.acc = [] := by decide

/-- V19 row i, bit 0 of the low length byte; and the first and last byte the statement reaches, with the high length byte
and the first payload byte between them. -/
theorem witness_SingleFlippedBitOnTheChannelIsReported :
    (fun B : List Byte => B.length ≤ 1025 ∧ validate Config.default B = .valid 0x10 [0x48, 0x69] ∧
      (∀ b ∈ B.tail.dropLast, b ≠ 0x7C ∧ b ≠ 0x7D) ∧
      ∀ i ∈ [1, 2, 3, 4, 7], 1 ≤ i ∧ i + 2 ≤ B.length ∧
        ∀ b ∈ (B.modify i (· ^^^ BitVec.twoPow 8 0)).tail.dropLast, b ≠ 0x7C ∧ b ≠ 0x7D)
      [0x7E, 0x10, 0x02, 0x00, 0x48, 0x69, 0xD4, 0x81, 0x7D] ∧
      State.reset.st = .idle ∧ State.reset.acc = [] := by decide

/-- V19 rows a, c and d: feeds from reset whose responses hold their reasons, at the lengths the bounds name. -/
theorem witness_ShortestStimuliForTheReasons :
    State.reset.st = .idle ∧
      ([([0x7E, 0x7D], .tooSmall), ([0x7E, 0x01, 0x05, 0x00, 0x00, 0x00, 0x7D], .lengthMismatch),
        ([0x7E, 0x01, 0x00, 0x00, 0x00, 0x00, 0x7D], .crcMismatch)] : List (List Byte × Reason)).all
        (fun x => (seen (execAll (dfFeed x.1) State.reset)) ==
          some ((0xFFFF, .idle, []), List.replicate (x.1.length - 1) .none ++ [.invalid x.2])) = true := by decide

/-- V20. -/
theorem witness_OversizeStreamOverflowsOnTheNextByte :
    State.reset.st = .idle ∧ (List.replicate 1024 (0x55 : Byte)).length = 1024 ∧
      ∀ x ∈ List.replicate 1024 (0x55 : Byte), x ≠ 0x7C ∧ x ≠ 0x7D :=
  ⟨rfl, by simp, fun x hx => by rw [List.eq_of_mem_replicate hx]; decide⟩

end Sys2Proof.Tests
end

/-! PROOFS. What each unit's operation does as one update of that unit's state, and that the two units share none
(spec/10_state.md rule R32). -/

namespace Sys2Proof.Machine

/-- The new `st` and `acc` and the answer of a push are fixed by the old `st` and `acc`: the same three serve every state
that agrees on them, and the push writes nothing else. -/
theorem pushByte_updates_from_st_acc (cfg : Config) (b : Byte) (st : RxState) (acc : Memory) :
    ∃ (st' : RxState) (acc' : Memory) (r : Response), ∀ s : State, s.st = st → s.acc = acc →
      pushByte cfg b s = respond r { s with st := st', acc := acc' } := by
  by_cases full : st ≠ .idle ∧ cfg.maxAcc < acc.length
  · obtain ⟨busy, long⟩ := full
    refine ⟨.idle, accClear, .invalid .bufferOverflow, fun s hst hacc => ?_⟩
    rw [pushByte_overflow cfg b s (hst ▸ busy) (hacc ▸ long), finishFrame, response_invalid]
  cases st with
  | idle =>
    by_cases start : b = cfg.startByte
    · refine ⟨.inFrame, [cfg.startByte], .none, fun s hst _ => ?_⟩
      rw [start, pushByte_idle_start cfg s hst]
    · refine ⟨.idle, acc, .none, fun s hst hacc => ?_⟩
      rw [pushByte_idle_drop cfg b s hst start, ← hst, ← hacc]
  | escapePending =>
    have fits : acc.length ≤ cfg.maxAcc := by simpa using full
    refine ⟨.inFrame, accAppend acc (b ^^^ Config.escXor), .none, fun s hst hacc => ?_⟩
    rw [pushByte_escaped cfg b s hst (hacc ▸ fits), hacc]
  | inFrame =>
    have fits : acc.length ≤ cfg.maxAcc := by simpa using full
    by_cases esc : b = cfg.escByte
    · refine ⟨.escapePending, acc, .none, fun s hst hacc => ?_⟩
      rw [esc, pushByte_escape cfg s hst (hacc ▸ fits), ← hacc]
    by_cases fin : b = cfg.endByte
    · refine ⟨.idle, accClear, (validate cfg (accAppend acc b)).response, fun s hst hacc => ?_⟩
      rw [fin, pushByte_end cfg s hst (hacc ▸ fits) (fin ▸ esc), finishFrame, hacc]
    · refine ⟨.inFrame, accAppend acc b, .none, fun s hst hacc => ?_⟩
      rw [pushByte_other cfg b s hst (hacc ▸ fits) esc fin, hacc, ← hst]

/-- A deframer operation writes `st`, `acc` and its answer alone, each fixed by the old `st` and `acc`. -/
theorem exec_deframer_updates_from_st_acc (i : Instr) (hi : (∃ b, i = .dfPush b) ∨ i = .dfReset)
    (st : RxState) (acc : Memory) :
    ∃ (st' : RxState) (acc' : Memory) (r : Response), ∀ s : State, s.st = st → s.acc = acc →
      exec i s = .next (respond r { s with st := st', acc := acc' }) := by
  obtain ⟨b, rfl⟩ | rfl := hi
  · obtain ⟨st', acc', r, push⟩ := pushByte_updates_from_st_acc Config.default b st acc
    exact ⟨st', acc', r, fun s hst hacc => by rw [exec_dfPush, push s hst hacc]⟩
  · exact ⟨.idle, accClear, .none, fun _ _ _ => rfl⟩

/-- A CRC operation writes `crc` and its answer alone, both fixed by the old `crc`. -/
theorem exec_crc_updates_from_crc (i : Instr) (hi : i = .crcInit ∨ (∃ b, i = .crcByte b) ∨ i = .crcRead)
    (c : Half) :
    ∃ (c' : Half) (r : Response), ∀ s : State, s.crc = c → exec i s = .next (respond r { s with crc := c' }) := by
  obtain rfl | ⟨b, rfl⟩ | rfl := hi
  · exact ⟨Config.crcInit, .none, fun _ _ => rfl⟩
  · exact ⟨crc16Update c b, .none, fun _ hc => hc ▸ rfl⟩
  · exact ⟨c, .crc c, fun _ hc => hc ▸ rfl⟩

/-- Settles O17: the two units' updates, each applied to one state for the writes and to two for the dependence. -/
theorem unitsShareNoState : Obligations.UnitsShareNoState := by
  refine ⟨fun i s t hi run => ?_, fun i s t hi run => ?_, fun i s t s' t' hi hcrc run run' => ?_,
    fun i s t s' t' hi hst hacc run run' => ?_⟩
  · obtain ⟨c, r, upd⟩ := exec_crc_updates_from_crc i hi s.crc
    obtain rfl := Host.Outcome.next.inj ((upd s rfl).symm.trans run)
    exact ⟨rfl, rfl, fun _ => rfl⟩
  · obtain ⟨st, acc, r, upd⟩ := exec_deframer_updates_from_st_acc i hi s.st s.acc
    obtain rfl := Host.Outcome.next.inj ((upd s rfl rfl).symm.trans run)
    rfl
  · obtain ⟨c, r, upd⟩ := exec_crc_updates_from_crc i hi s.crc
    obtain rfl := Host.Outcome.next.inj ((upd s rfl).symm.trans run)
    obtain rfl := Host.Outcome.next.inj ((upd s' hcrc.symm).symm.trans run')
    exact ⟨rfl, r, rfl, rfl⟩
  · obtain ⟨st, acc, r, upd⟩ := exec_deframer_updates_from_st_acc i hi s.st s.acc
    obtain rfl := Host.Outcome.next.inj ((upd s rfl rfl).symm.trans run)
    obtain rfl := Host.Outcome.next.inj ((upd s' hst.symm hacc.symm).symm.trans run')
    exact ⟨rfl, rfl, r, rfl, rfl⟩

end Sys2Proof.Machine

/-! PROOFS. The frame of every operation over the accumulator (spec/20_memory.md rule R41): each case of a push leaves the
accumulator alone, clears it or appends one byte, and no other operation does more than clear it. -/

namespace Sys2Proof.Machine

/-- The frame of an append: one byte more, it stands at the address stored at, and every other address reads as before. -/
theorem accAppend_frame (m : Memory) (v : Byte) :
    (accAppend m v).length = m.length + 1 ∧ accByte? (accAppend m v) (accStoreAddr m) = some v ∧
      ∀ a, a ≠ accStoreAddr m → accByte? (accAppend m v) a = accByte? m a :=
  ⟨accAppend_length m v, accByte_append_at m v, accByte_append_other m v⟩

/-- Settles O33: each clause about a push from the rule that answers that byte in that state, read at the accumulator; a
CRC operation from its update of `crc` alone. -/
theorem accumulatorBytesChangeOnlyByAppendAndClear : Obligations.AccumulatorBytesChangeOnlyByAppendAndClear := by
  refine ⟨fun b s t run => ?push, fun i s t hi run => ?crc, fun s t run => ?reset⟩
  case push =>
    obtain rfl := Host.Outcome.next.inj ((exec_dfPush b s).symm.trans run)
    refine ⟨pushByte_crc _ b s, pushByte_pending _ b s, fun idle hb a => ?drop, fun idle hb => ?start,
      fun busy long a => ?overflow, fun esc fits => ?escaped, fun frame fits hb a => ?escape,
      fun frame fits hb a => ?fin, fun frame fits hesc hend => ?other⟩
    case drop => rw [pushByte_idle_drop _ b s idle hb, respond_acc]
    case start =>
      rw [hb, ← Config.default_startByte, pushByte_idle_start _ s idle]
      obtain ⟨-, stored, others⟩ := accAppend_frame accClear Config.default.startByte
      exact ⟨stored, fun a ha => (others a ha).trans (accByte_clear a)⟩
    case overflow =>
      rw [pushByte_overflow _ b s busy long]
      exact accByte_clear a
    case escaped =>
      rw [pushByte_escaped _ b s esc fits]
      exact accAppend_frame s.acc _
    case escape => rw [hb, ← Config.default_escByte, pushByte_escape _ s frame fits, respond_acc]
    case fin =>
      rw [hb, ← Config.default_endByte, pushByte_end _ s frame fits (by decide)]
      exact accByte_clear a
    case other =>
      rw [pushByte_other _ b s frame fits hesc hend]
      exact accAppend_frame s.acc b
  case crc =>
    obtain ⟨c, r, upd⟩ := exec_crc_updates_from_crc i hi s.crc
    obtain rfl := Host.Outcome.next.inj ((upd s rfl).symm.trans run)
    exact ⟨rfl, rfl, fun _ => rfl⟩
  case reset =>
    obtain rfl := Host.Outcome.next.inj run
    exact ⟨rfl, rfl, accByte_clear⟩

end Sys2Proof.Machine

/-! PROOFS. What the decoder answers for the two fields of a command word, and which rows of the operation table a word
selects by them (spec/30_encoding.md rules R71 to R74); the names and codes of the reasons (rule R77). -/

namespace Sys2Proof.Machine

/-- A word is its two fields side by side. -/
@[simp] theorem wordOfFields_fieldsOfWord (w : CmdWord) : wordOfFields (fieldsOfWord w) = w :=
  BitVec.extractLsb'_append_extractLsb'

@[simp] theorem fieldsOfWord_wordOfFields (f : CmdFields) : fieldsOfWord (wordOfFields f) = f := by
  simp only [fieldsOfWord, wordOfFields, BitVec.extractLsb'_append_eq_left, BitVec.extractLsb'_append_eq_right]

theorem wordOfFields_eq_iff (f g : CmdFields) : wordOfFields f = wordOfFields g ↔ f = g :=
  ⟨fun h => by simpa using congrArg fieldsOfWord h, congrArg wordOfFields⟩

/-- A row whose mask is all ones is selected by one pair of fields. -/
theorem selects_full_row (w : CmdWord) (g : CmdFields) :
    (w &&& 0x7FF == wordOfFields g) = (fieldsOfWord w == g) := by
  have keep : w &&& 0x7FF = w := BitVec.and_allOnes
  rw [keep, Bool.eq_iff_iff, beq_iff_eq, beq_iff_eq, ← wordOfFields_eq_iff, wordOfFields_fieldsOfWord]

/-- A row whose mask is ones in bits 10:8 is selected by the operation code alone. -/
theorem selects_operand_row (w : CmdWord) (op : BitVec 3) :
    (w &&& 0x700 == wordOfFields ⟨op, 0⟩) = ((fieldsOfWord w).op == op) := by
  have keep : w &&& 0x700 = wordOfFields ⟨(fieldsOfWord w).op, 0⟩ := by
    rw [← wordOfFields_fieldsOfWord w, fieldsOfWord_wordOfFields]
    calc wordOfFields (fieldsOfWord w) &&& 0x700
        = (BitVec.allOnes 3 &&& (fieldsOfWord w).op) ++ (0#8 &&& (fieldsOfWord w).data) := by
          rw [BitVec.and_comm]; exact BitVec.and_append (x₁ := BitVec.allOnes 3) (y₁ := 0#8)
      _ = _ := by rw [BitVec.allOnes_and, BitVec.zero_and]; rfl
  rw [keep, Bool.eq_iff_iff, beq_iff_eq, beq_iff_eq, wordOfFields_eq_iff, CmdFields.mk.injEq, and_iff_left rfl]

theorem decodePlain_cases (f : CmdFields) (i : Instr) :
    (f.data ≠ 0 ∧ ∃ why, decodePlain f i = .illegal why) ∨ (f.data = 0 ∧ decodePlain f i = .instr i) := by
  by_cases h : f.data = 0
  · exact .inr ⟨h, if_pos h⟩
  · exact .inl ⟨h, _, if_neg h⟩

/-- Data bits beside an operation code that takes no operand are illegal (rule R74). -/
theorem wf_false_of_data_ne_zero (f : CmdFields) (noOperand : f.takesData = false) (h : f.data ≠ 0) : f.wf = false := by
  simpa [CmdFields.wf, CmdFields.dataAllowed, noOperand] using fun _ => h

/-- Everything the decoder can answer (rules R72 to R74): illegal, or an operation by its code and with its operand. -/
theorem decodeFields_cases (f : CmdFields) :
    (f.wf = false ∧ ∃ why, decodeFields f = .illegal why) ∨
    (f = ⟨0, 0⟩ ∧ decodeFields f = .instr .crcInit) ∨
    (∃ b, f = ⟨1, b⟩ ∧ decodeFields f = .instr (.crcByte b)) ∨
    (f = ⟨2, 0⟩ ∧ decodeFields f = .instr .crcRead) ∨
    (∃ b, f = ⟨3, b⟩ ∧ decodeFields f = .instr (.dfPush b)) ∨
    (f = ⟨4, 0⟩ ∧ decodeFields f = .instr .dfReset) := by
  obtain ⟨op, data⟩ := f
  match op with
  | 0 =>
    obtain ⟨h, e⟩ | ⟨rfl, e⟩ := decodePlain_cases ⟨0, data⟩ .crcInit
    · exact .inl ⟨wf_false_of_data_ne_zero _ rfl h, e⟩
    · exact .inr (.inl ⟨rfl, e⟩)
  | 1 => exact .inr (.inr (.inl ⟨data, rfl, rfl⟩))
  | 2 =>
    obtain ⟨h, e⟩ | ⟨rfl, e⟩ := decodePlain_cases ⟨2, data⟩ .crcRead
    · exact .inl ⟨wf_false_of_data_ne_zero _ rfl h, e⟩
    · exact .inr (.inr (.inr (.inl ⟨rfl, e⟩)))
  | 3 => exact .inr (.inr (.inr (.inr (.inl ⟨data, rfl, rfl⟩))))
  | 4 =>
    obtain ⟨h, e⟩ | ⟨rfl, e⟩ := decodePlain_cases ⟨4, data⟩ .dfReset
    · exact .inl ⟨wf_false_of_data_ne_zero _ rfl h, e⟩
    · exact .inr (.inr (.inr (.inr (.inr ⟨rfl, e⟩))))
  | 5 | 6 | 7 => exact .inl ⟨rfl, _, rfl⟩

/-- The operand is bits 7:0 of the word (rule R73). -/
theorem fieldsOfWord_data (w : CmdWord) : (fieldsOfWord w).data = w.setWidth 8 :=
  BitVec.setWidth_eq_extractLsb' (by decide) |>.symm

/-- Settles O3: the rows read at the word's two fields, then the decoder's six answers. -/
theorem decoderFollowsOperationTable : Obligations.DecoderFollowsOperationTable := by
  intro w
  have init : (w &&& 0x7FF == 0x000) = (fieldsOfWord w == ⟨0, 0⟩) := selects_full_row w ⟨0, 0⟩
  have byte : (w &&& 0x700 == 0x100) = ((fieldsOfWord w).op == 1) := selects_operand_row w 1
  have read : (w &&& 0x7FF == 0x200) = (fieldsOfWord w == ⟨2, 0⟩) := selects_full_row w ⟨2, 0⟩
  have push : (w &&& 0x700 == 0x300) = ((fieldsOfWord w).op == 3) := selects_operand_row w 3
  have reset : (w &&& 0x7FF == 0x400) = (fieldsOfWord w == ⟨4, 0⟩) := selects_full_row w ⟨4, 0⟩
  rw [← fieldsOfWord_data, decode]
  simp only [List.filter, init, byte, read, push, reset]
  generalize fieldsOfWord w = f
  obtain ⟨bad, why, e⟩ | ⟨rfl, e⟩ | ⟨b, rfl, e⟩ | ⟨rfl, e⟩ | ⟨b, rfl, e⟩ | ⟨rfl, e⟩ := decodeFields_cases f
  case inl =>
    have notFull (g : CmdFields) (hg : g.wf = true) : (f == g) = false :=
      beq_false_of_ne fun h => by rw [h, hg] at bad; cases bad
    have notOperand (op : BitVec 3) (hop : ∀ b, (CmdFields.mk op b).wf = true) : (f.op == op) = false :=
      beq_false_of_ne fun h => by rw [← h] at hop; rw [hop f.data] at bad; cases bad
    rw [notFull ⟨0, 0⟩ rfl, notOperand 1 fun _ => rfl, notFull ⟨2, 0⟩ rfl, notOperand 3 fun _ => rfl,
      notFull ⟨4, 0⟩ rfl, e]
    exact ⟨rfl, fun b h => by simp at h⟩
  case inr.inr.inl | inr.inr.inr.inr.inl =>
    rw [e]
    exact ⟨rfl, fun b' h => Eq.symm (by simpa using h)⟩
  all_goals
    rw [e]
    exact ⟨rfl, fun b h => by simp at h⟩

/-- Settles O9: the three tables of the model, read at each reason. -/
theorem reasonStringsAndCodes : Obligations.ReasonStringsAndCodes := rfl

end Sys2Proof.Machine

/-! PROOFS. What the pseudo-operations do (spec/30_encoding.md rule R80): a run of `CRC.BYTE` folds its bytes into the
register, and a run of pushes gives one response a byte. -/

namespace Sys2Proof.Machine

/-- A run of `CRC.BYTE` operations folds the bytes into the register and answers `None` to each. -/
theorem execAll_crcByte (bytes : List Byte) (s : State) :
    execAll (bytes.map .crcByte) s = .next { s with
      crc := crcFold s.crc bytes
      responses := s.responses ++ List.replicate bytes.length .none } := by
  induction bytes generalizing s with
  | nil => simp
  | cons b bytes ih =>
    calc execAll ((b :: bytes).map .crcByte) s
        = execAll (bytes.map .crcByte) (respond .none { s with crc := crc16Update s.crc b }) := rfl
      _ = _ := by rw [ih]; simp [List.replicate_succ]

/-- A run of pushes gives one response a byte. -/
theorem pushAll_responses (cfg : Config) (bytes : List Byte) (s : State) :
    ∃ rs : List Response, (pushAll cfg bytes s).responses = s.responses ++ rs ∧ rs.length = bytes.length := by
  induction bytes generalizing s with
  | nil => exact ⟨[], by simp⟩
  | cons b bytes ih =>
    obtain ⟨st, acc, r, push⟩ := pushByte_updates_from_st_acc cfg b s.st s.acc
    obtain ⟨rs, run, len⟩ := ih (pushByte cfg b s)
    refine ⟨r :: rs, ?_, congrArg Nat.succ len⟩
    calc (pushAll cfg (b :: bytes) s).responses
        = (pushByte cfg b s).responses ++ rs := run
      _ = s.responses ++ r :: rs := by simp [push s rfl rfl]

/-- The codes of a text whose characters all have one. -/
theorem mapM_asciiCode (cs : List Char) (ascii : ∀ c ∈ cs, c.toNat < 128) :
    cs.mapM asciiCode = some (cs.map fun c => BitVec.ofNat 8 c.toNat) := by
  induction cs with
  | nil => rfl
  | cons c cs ih =>
    obtain ⟨hc, hcs⟩ := List.forall_mem_cons.1 ascii
    simp [List.mapM_cons, asciiCode_of_lt c hc, ih hcs]

/-- Settles O8: the expansions by definition, what they do by the runs of `CRC.BYTE` and of pushes. -/
theorem pseudoOperationsRun : Obligations.PseudoOperationsRun := by
  refine ⟨fun bytes => ⟨rfl, rfl⟩, fun bytes s => ?buf, fun bytes s => ?feed, fun text ascii => ?text,
    fun b m => List.map_replicate⟩
  case buf =>
    have fold := execAll_crcByte bytes (respond .none { s with crc := Config.crcInit })
    calc execAll (crcBuf bytes) s
        = execAll (bytes.map .crcByte ++ [.crcRead]) (respond .none { s with crc := Config.crcInit }) := rfl
      _ = _ := by
        rw [execAll_append _ _ _ _ fold]
        simp [execAll, exec, execCrcRead, respond, crc16, List.replicate_succ]
  case feed =>
    obtain ⟨rs, run, len⟩ := pushAll_responses Config.default bytes s
    exact ⟨_, rs, execAll_dfFeed bytes s, run, len⟩
  case text => simp [dfFeedText, mapM_asciiCode _ ascii, dfFeed]

end Sys2Proof.Machine

/-! PROOFS. Stuffing (spec/30_encoding.md rule R62): it leaves no bare marker, and unstuffing takes it back. -/

namespace Sys2Proof.Machine

/-- Unstuffing takes back the wire bytes of one byte, at every configuration: ESCAPE is itself a special byte. -/
theorem unstuffFrom_stuffByte (cfg : Config) (b : Byte) (w : List Byte) :
    unstuffFrom cfg false (stuffByte cfg b ++ w) =
      (b :: (unstuffFrom cfg false w).1, (unstuffFrom cfg false w).2) := by
  unfold stuffByte
  split
  · calc unstuffFrom cfg false ([cfg.escByte, b ^^^ Config.escXor] ++ w)
        = unstuffFrom cfg true ((b ^^^ Config.escXor) :: w) := unstuffFrom_escape cfg _
      _ = _ := by rw [unstuffFrom, BitVec.xor_assoc, BitVec.xor_self, BitVec.xor_zero]
  case isFalse plain =>
    have notEscape : b ≠ cfg.escByte := fun h => plain (by simp [Config.isSpecial, h])
    exact unstuffFrom_plain cfg b w notEscape

theorem unstuff_stuff (cfg : Config) (p : List Byte) : unstuff cfg (stuff cfg p) = (p, false) := by
  unfold unstuff
  induction p with
  | nil => rfl
  | cons b p ih => rw [stuff_cons, unstuffFrom_stuffByte, ih]

/-- Stuffing adds one byte for each special byte. -/
theorem stuff_length (cfg : Config) (p : List Byte) :
    (stuff cfg p).length = p.length + p.countP cfg.isSpecial := by
  induction p with
  | nil => rfl
  | cons b p ih =>
    rw [stuff_cons, List.length_append, ih, List.countP_cons, List.length_cons, stuffByte]
    split <;> simp <;> omega

theorem default_isSpecial_not (b : Byte) :
    ¬Config.default.isSpecial b = true ↔ b ≠ 0x7E ∧ b ≠ 0x7D ∧ b ≠ 0x7C := by
  rw [Config.default_isSpecial, not_or, not_or]

/-- The wire bytes of one byte, written out: ESCAPE with one of three bytes, or the byte itself. -/
theorem stuffByte_default_cases (b : Byte) :
    (∃ x ∈ ([0x5E, 0x5D, 0x5C] : List Byte), stuffByte Config.default b = [0x7C, x]) ∨
    (b ≠ 0x7E ∧ b ≠ 0x7D ∧ b ≠ 0x7C ∧ stuffByte Config.default b = [b]) := by
  by_cases special : Config.default.isSpecial b = true
  · refine .inl ⟨b ^^^ Config.escXor, ?_, if_pos special⟩
    obtain rfl | rfl | rfl := (Config.default_isSpecial b).1 special <;> decide
  · obtain ⟨start, fin, esc⟩ := (default_isSpecial_not b).1 special
    exact .inr ⟨start, fin, esc, if_neg special⟩

theorem stuff_default_no_marker (p : List Byte) :
    ∀ b ∈ stuff Config.default p, b ≠ 0x7E ∧ b ≠ 0x7D := by
  intro b hb
  obtain ⟨a, -, hb⟩ := List.mem_flatMap.1 hb
  obtain ⟨x, hx, e⟩ | ⟨start, fin, -, e⟩ := stuffByte_default_cases a <;> rw [e] at hb
  · have pairs : ∀ x ∈ ([0x5E, 0x5D, 0x5C] : List Byte), ∀ b ∈ [0x7C, x], b ≠ 0x7E ∧ b ≠ 0x7D := by decide
    exact pairs x hx b hb
  · rw [List.mem_singleton.1 hb]; exact ⟨start, fin⟩

theorem stuff_default_after_escape (p : List Byte) (i : Nat) (hi : (stuff Config.default p)[i]? = some 0x7C) :
    ∃ x ∈ ([0x5E, 0x5D, 0x5C] : List Byte), (stuff Config.default p)[i + 1]? = some x := by
  induction p generalizing i with
  | nil => simp at hi
  | cons b p ih =>
    rw [stuff_cons] at hi ⊢
    obtain ⟨x, hx, e⟩ | ⟨-, -, esc, e⟩ := stuffByte_default_cases b <;> rw [e] at hi ⊢
    · match i with
      | 0 => exact ⟨x, hx, rfl⟩
      | 1 =>
        obtain rfl : x = 0x7C := Option.some.inj hi
        exact absurd hx (by decide)
      | i + 2 => exact ih i hi
    · match i with
      | 0 => exact absurd (Option.some.inj hi) esc
      | i + 1 => exact ih i hi

/-- Settles O42: the substitutions byte by byte, the shape by cases on each byte's wire form, the rest at every
configuration. -/
theorem stuffingIsUndoneByUnstuffing : Obligations.StuffingIsUndoneByUnstuffing := by
  refine ⟨fun b => ?one, fun p q => List.flatMap_append, fun p => ⟨stuff_default_no_marker p,
    stuff_default_after_escape p, stuff_length _ p, unstuff_stuff _ p⟩⟩
  case one =>
    rw [stuff_cons, stuff_nil, List.append_nil]
    split_ifs with start fin esc
    · rw [start]; rfl
    · rw [fin]; rfl
    · rw [esc]; rfl
    · exact if_neg ((default_isSpecial_not b).2 ⟨start, fin, esc⟩)

end Sys2Proof.Machine

/-! PROOFS. What a stream of pushes does inside a frame (spec/30_encoding.md rules R63, R70 and R122): as long as no
unescaped END comes and the guard does not fire, the accumulator grows by the unstuffed stream. -/

namespace Sys2Proof.Machine

/-- The receiver state inside a frame, with an escape pending or not (rule R22). -/
def RxState.inFrameWith : Bool → RxState
  | false => .inFrame
  | true => .escapePending

/-- Unstuffing in two parts: the second starts with what is pending after the first. -/
theorem unstuffFrom_append (cfg : Config) (pending : Bool) (u v : List Byte) :
    unstuffFrom cfg pending (u ++ v) =
      ((unstuffFrom cfg pending u).1 ++ (unstuffFrom cfg (unstuffFrom cfg pending u).2 v).1,
        (unstuffFrom cfg (unstuffFrom cfg pending u).2 v).2) := by
  induction u generalizing pending with
  | nil => simp
  | cons b u ih =>
    cases pending with
    | true => simp [unstuffFrom, ih]
    | false => by_cases esc : b = cfg.escByte <;> simp [unstuffFrom, esc, ih]

/-- The first bytes of a stream unstuff to no more than the whole stream does. -/
theorem unstuffFrom_take_length_le (cfg : Config) (pending : Bool) (w : List Byte) (k : Nat) :
    (unstuffFrom cfg pending (w.take k)).1.length ≤ (unstuffFrom cfg pending w).1.length := by
  conv_rhs => rw [← List.take_append_drop k w, unstuffFrom_append, List.length_append]
  exact Nat.le_add_right _ _

/-- Inside a frame, a stream without an unescaped END and too short for the guard to fire is appended unstuffed, each
byte answered `None`. -/
theorem pushAll_inFrame (cfg : Config) (w : List Byte) (pending : Bool) (s : State)
    (inside : s.st = .inFrameWith pending) (noEnd : noPlainEndFrom cfg pending w = true)
    (fits : ∀ k < w.length, s.acc.length + (unstuffFrom cfg pending (w.take k)).1.length ≤ cfg.maxAcc) :
    pushAll cfg w s = { s with
      st := .inFrameWith (unstuffFrom cfg pending w).2
      acc := s.acc ++ (unstuffFrom cfg pending w).1
      responses := s.responses ++ List.replicate w.length .none } := by
  induction w generalizing pending s with
  | nil => simp [← inside]
  | cons b w ih =>
    have fitsNow : s.acc.length ≤ cfg.maxAcc := by simpa using fits 0 (Nat.succ_pos _)
    have fitsLater (k : Nat) (hk : k < w.length) := fits (k + 1) (Nat.succ_lt_succ hk)
    rw [pushAll]
    cases pending with
    | true =>
      rw [pushByte_escaped cfg b s inside fitsNow, ih false _ rfl noEnd fun k hk => ?_]
      · simp [unstuffFrom, accAppend, List.replicate_succ]
      · simpa [unstuffFrom, Nat.add_assoc, Nat.add_comm, Nat.add_left_comm] using fitsLater k hk
    | false =>
      obtain ⟨notEnd, noEndLater⟩ : b ≠ cfg.endByte ∧ noPlainEndFrom cfg (b == cfg.escByte) w = true := by
        simpa [noPlainEndFrom] using noEnd
      by_cases esc : b = cfg.escByte
      · subst esc
        rw [pushByte_escape cfg s inside fitsNow, ih true _ rfl (by simpa using noEndLater) fun k hk => ?_]
        · simp [unstuffFrom, List.replicate_succ]
        · simpa [unstuffFrom] using fitsLater k hk
      · rw [pushByte_other cfg b s inside fitsNow esc notEnd,
          ih false (respond .none { s with acc := accAppend s.acc b }) inside (beq_false_of_ne esc ▸ noEndLater)
            fun k hk => ?_]
        · simp [unstuffFrom, accAppend, esc, List.replicate_succ]
        · simpa [unstuffFrom, esc, Nat.add_assoc, Nat.add_comm, Nat.add_left_comm] using fitsLater k hk

/-- From Idle, START and such a stream leave START and the unstuffed stream in the accumulator. -/
theorem pushAll_start_stream (cfg : Config) (w : List Byte) (s : State) (idle : s.st = .idle)
    (noEnd : noPlainEnd cfg w = true)
    (fits : ∀ k < w.length, (unstuff cfg (w.take k)).1.length + 1 ≤ cfg.maxAcc) :
    pushAll cfg (cfg.startByte :: w) s = { s with
      st := .inFrameWith (unstuff cfg w).2
      acc := cfg.startByte :: (unstuff cfg w).1
      responses := s.responses ++ List.replicate (w.length + 1) .none } := by
  rw [pushAll, pushByte_idle_start cfg s idle, pushAll_inFrame cfg w false _ rfl noEnd fun k hk => ?_]
  · simp [unstuff, List.replicate_succ]
  · simpa [unstuff, Nat.add_comm] using fits k hk

/-- Settles O47: the stream up to END by `pushAll_start_stream`, then END pushed in a frame or after ESCAPE. -/
theorem firstUnescapedEndCompletesTheFrame : Obligations.FirstUnescapedEndCompletesTheFrame := by
  intro w s idle empty noEnd fits
  have stream := pushAll_start_stream Config.default w s idle noEnd fun k _ =>
    (Nat.succ_le_succ (unstuffFrom_take_length_le _ false w k)).trans fits
  have feed : execAll (dfFeed (0x7E :: w ++ [0x7D])) s = .next (pushByte Config.default Config.default.endByte
      (pushAll Config.default (Config.default.startByte :: w) s)) := by
    rw [execAll_dfFeed, pushAll_append]; rfl
  generalize pushAll Config.default (Config.default.startByte :: w) s = t at feed stream
  have room : t.acc.length ≤ Config.default.maxAcc := by rw [stream]; exact fits
  refine ⟨fun plain => ?_, fun pending => ?_⟩
  · have inFrame : t.st = .inFrame := by rw [stream, plain]; rfl
    rw [feed, pushByte_end _ t inFrame room (by decide), stream]
    simp [finishFrame, respond, accAppend, accClear, Config.default, idle, empty]
  · have escaping : t.st = .escapePending := by rw [stream, pending]; rfl
    rw [feed, pushByte_escaped _ _ t escaping room, stream]
    simp [respond, accAppend, Config.default, Config.escXor, List.replicate_succ']

end Sys2Proof.Machine

/-! PROOFS. The CRC unit (spec/40_crc16.md): the update is a bijection of the register and injective in the byte (rule
R93), and is the bit-serial algorithm of rule R90 over natural numbers; the three operations (rules R92 to R94) and the
function of rule R91. -/

namespace Sys2Proof.Machine

/-- `CRC.INIT` as one update of the state (rule R92). -/
theorem exec_crcInit (s : State) :
    exec .crcInit s = .next { s with crc := 0xFFFF, responses := s.responses ++ [.none] } := rfl

/-- `CRC.BYTE b` as one update of the state (rule R93). -/
theorem exec_crcByte (b : Byte) (s : State) :
    exec (.crcByte b) s = .next { s with crc := crc16Update s.crc b, responses := s.responses ++ [.none] } := rfl

/-- `CRC.READ` as one update of the state (rule R94). -/
theorem exec_crcRead (s : State) :
    exec .crcRead s = .next { s with responses := s.responses ++ [.crc s.crc] } := rfl

/-- The operand's word as the number 0x100 plus the operand (rule R72). -/
theorem encode_crcByte (b : Byte) : encode (.crcByte b) = 0x100 + b.setWidth 11 := by
  have hb : b.toNat < 2 ^ 8 := b.isLt
  apply BitVec.eq_of_toNat_eq
  calc (encode (.crcByte b)).toNat
      = 1 <<< 8 ||| b.toNat := BitVec.toNat_append 1#3 b
    _ = 1 <<< 8 + b.toNat := (Nat.shiftLeft_add_eq_or_of_lt hb 1).symm
    _ = (0x100 + b.setWidth 11 : CmdWord).toNat := by
      rw [BitVec.toNat_add, BitVec.toNat_setWidth]
      change 256 + b.toNat = (256 + b.toNat % 2 ^ 11) % 2 ^ 11
      omega

/-- The byte enters in bits 15:8, so as its value times 2^8 (rule R90). -/
theorem byteEntry_toNat (b : Byte) : (b.zeroExtend 16 <<< 8 : Half).toNat = b.toNat * 2 ^ 8 := by
  have hb : b.toNat < 2 ^ 8 := b.isLt
  rw [BitVec.toNat_shiftLeft, BitVec.toNat_setWidth, Nat.shiftLeft_eq]
  omega

theorem byteEntry_injective : Function.Injective fun b : Byte => (b.zeroExtend 16 <<< 8 : Half) := by
  intro b b' h
  have same : b.toNat * 2 ^ 8 = b'.toNat * 2 ^ 8 := by
    rw [← byteEntry_toNat, ← byteEntry_toNat]; exact congrArg BitVec.toNat h
  exact BitVec.eq_of_toNat_eq (Nat.eq_of_mul_eq_mul_right (by decide) same)

/-- The loop is linear and only zero goes to zero, so no two registers go to one. -/
theorem crcShifts_injective (k : Nat) : Function.Injective (crcShifts k) := by
  intro r r' h
  have zero : r ^^^ r' = 0 := crcShifts_eq_zero k _ (by rw [crcShifts_xor, h]; exact BitVec.xor_self)
  exact BitVec.xor_eq_zero_iff.1 zero

/-- For each byte the update is a bijection of the register: injective on a finite type. -/
theorem crc16Update_bijective (b : Byte) : Function.Bijective fun c : Half => crc16Update c b :=
  Finite.injective_iff_bijective.1 fun _ _ h =>
    (BitVec.xor_left_inj _).1 (crcShifts_injective 8 h)

/-- For each register the update is injective in the byte. -/
theorem crc16Update_injective_byte (c : Half) : Function.Injective fun b : Byte => crc16Update c b :=
  fun _ _ h => byteEntry_injective ((BitVec.xor_right_inj _).1 (crcShifts_injective 8 h))

/-- Zero bytes leave a zero register (rule R93). -/
theorem crcFold_zero_replicate (k : Nat) : crcFold 0 (List.replicate k 0) = 0 := by
  have fixed : crc16Update 0 0 = 0 := by decide
  induction k with
  | zero => rfl
  | succ k ih => rw [List.replicate_succ, crcFold_cons, fixed, ih]

/-- Settles O21: the encoding and the next state by their equations, the maps from the loop's injectivity. -/
theorem crcByteFoldsOneByte : Obligations.CrcByteFoldsOneByte :=
  ⟨encode_crcByte, exec_crcByte, crc16Update_bijective, crc16Update_injective_byte, crcFold_zero_replicate,
    by decide, by decide⟩

/-- The shift step over natural numbers, in the notation of rule R10. -/
def crcShiftNat (r : Nat) : Nat :=
  if r / 2 ^ 15 % 2 = 1 then (r * 2 % 2 ^ 16) ^^^ 0x1021 else r * 2 % 2 ^ 16

theorem half_msb_iff (r : Half) : r.msb = true ↔ r.toNat / 2 ^ 15 % 2 = 1 := by
  have hr : r.toNat < 2 ^ 16 := r.isLt
  rw [BitVec.msb_eq_decide, decide_eq_true_iff]
  omega

/-- The shift step of the model is that of the numbers. -/
theorem crcShift_toNat : Function.Semiconj BitVec.toNat crcShift crcShiftNat := by
  intro r
  have shifted : (r <<< 1).toNat = r.toNat * 2 % 2 ^ 16 := by
    rw [BitVec.toNat_shiftLeft, Nat.shiftLeft_eq, pow_one]
  rw [crcShift, crcShiftNat]
  by_cases top : r.msb = true
  · rw [if_pos top, if_pos ((half_msb_iff r).1 top), BitVec.toNat_xor, shifted]; rfl
  · rw [if_neg top, if_neg (mt (half_msb_iff r).2 top), shifted]

theorem crcShifts_eq_iterate (k : Nat) (r : Half) : crcShifts k r = crcShift^[k] r := by
  induction k generalizing r with
  | zero => rfl
  | succ k ih => exact ih (crcShift r)

/-- Rule R90 over natural numbers. -/
theorem crc16Update_toNat (c : Half) (b : Byte) :
    (crc16Update c b).toNat = crcShiftNat^[8] (c.toNat ^^^ (b.toNat * 2 ^ 8)) := by
  rw [crc16Update, crcShifts_eq_iterate, crcShift_toNat.iterate_right 8, BitVec.toNat_xor, byteEntry_toNat]

/-- The check value of rule R90, by the register after each byte as V1 of spec/95_test_vectors.md prints it. -/
theorem crc16_check_value : crc16 [0x31, 0x32, 0x33, 0x34, 0x35, 0x36, 0x37, 0x38, 0x39] = 0x29B1 := by
  have after1 : crc16Update Config.crcInit 0x31 = 0xC782 := by decide
  have after2 : crc16Update 0xC782 0x32 = 0x3DBA := by decide
  have after3 : crc16Update 0x3DBA 0x33 = 0x5BCE := by decide
  have after4 : crc16Update 0x5BCE 0x34 = 0x5349 := by decide
  have after5 : crc16Update 0x5349 0x35 = 0x4560 := by decide
  have after6 : crc16Update 0x4560 0x36 = 0x2EF4 := by decide
  have after7 : crc16Update 0x2EF4 0x37 = 0x7718 := by decide
  have after8 : crc16Update 0x7718 0x38 = 0xA12B := by decide
  have after9 : crc16Update 0xA12B 0x39 = 0x29B1 := by decide
  simp only [crc16, crcFold_cons, crcFold_nil, after1, after2, after3, after4, after5, after6, after7, after8, after9]

/-- Settles O23: the loop over natural numbers step by step, with its check value. -/
theorem crcUpdateIsTheBitSerialAlgorithm : Obligations.CrcUpdateIsTheBitSerialAlgorithm :=
  ⟨crc16Update_toNat, crc16_check_value⟩

/-- Settles O20: the next state by `exec_crcInit`, which a second `CRC.INIT` changes in its responses alone. -/
theorem crcInitSetsTheInitialValue : Obligations.CrcInitSetsTheInitialValue := by
  refine ⟨rfl, exec_crcInit, fun s t u first second => ?_⟩
  obtain rfl := Host.Outcome.next.inj ((exec_crcInit s).symm.trans first)
  obtain rfl := Host.Outcome.next.inj ((exec_crcInit _).symm.trans second)
  rfl

/-- The wire bytes of a half-word are its bits 7:0 and then its bits 15:8 (rule R44). -/
theorem leBytes_toNat (v : Half) : leBytes v.toNat = [v.extractLsb' 0 8, v.extractLsb' 8 8] := by
  have low : BitVec.ofNat 8 (v.toNat % 256) = v.extractLsb' 0 8 := by
    apply BitVec.eq_of_toNat_eq; simp
  have high : BitVec.ofNat 8 (v.toNat / 256) = v.extractLsb' 8 8 := by
    apply BitVec.eq_of_toNat_eq; simp [Nat.shiftRight_eq_div_pow]
  rw [leBytes, low, high]

/-- Settles O22: the answer by `exec_crcRead`, the byte order by the half-word's two bytes. -/
theorem crcReadAnswersTheRegister : Obligations.CrcReadAnswersTheRegister :=
  ⟨rfl, exec_crcRead, exec_crcRead State.reset, leBytes_toNat⟩

/-- Settles O24: a fold takes its last byte last. -/
theorem crcOfBytesStartsAtInitialValue : Obligations.CrcOfBytesStartsAtInitialValue :=
  ⟨crc16_nil, fun bytes b => crcFold_append Config.crcInit bytes [b]⟩

end Sys2Proof.Machine

/-! PROOFS. The deframer unit (spec/41_deframer.md): the rows of the transition table (rule R118), the overflow guard
(rule R113) and `DF.RESET` (rule R119). -/

namespace Sys2Proof.Machine

/-- `DF.RESET` as one update of the state (rule R119). -/
theorem exec_dfReset (s : State) :
    exec .dfReset s = .next { s with st := .idle, acc := [], responses := s.responses ++ [.none] } := rfl

/-- Settles O32: the next state by `exec_dfReset`; in Idle the accumulator was empty already. -/
theorem dfResetReturnsToIdle : Obligations.DfResetReturnsToIdle := by
  refine ⟨by decide, exec_dfReset, fun s t run => ?cleared, fun s t inv idle run => ?same⟩ <;>
    obtain rfl := Host.Outcome.next.inj ((exec_dfReset s).symm.trans run)
  case cleared => exact accByte_clear
  case same => rw [State.block, State.block, idle, inv.idle idle]

/-- A rule about a push is one about the operation. -/
theorem exec_dfPush_of_pushByte {b : Byte} {s t : State} (push : pushByte Config.default b s = t) :
    exec (.dfPush b) s = .next t := congrArg Host.Outcome.next push

/-- Buffer overflow is the guard's answer alone: no step of `VALIDATE` gives it (rules R130 to R136). -/
theorem validate_response_ne_bufferOverflow (cfg : Config) (image : Memory) :
    (validate cfg image).response ≠ .invalid .bufferOverflow := by
  obtain ⟨-, e⟩ | ⟨_, ⟨-, e⟩ | ⟨-, -, e⟩ | ⟨-, -, -, e⟩ | ⟨-, -, -, e⟩⟩ := validate_cases cfg image <;>
    rw [e] <;> simp

/-- Without the guard a push does not answer buffer overflow: it answers `None` or what `VALIDATE` says (rule R113). -/
theorem pushByte_responses_ne_bufferOverflow (cfg : Config) (b : Byte) (s : State)
    (quiet : s.st = .idle ∨ s.acc.length ≤ cfg.maxAcc) :
    (pushByte cfg b s).responses ≠ s.responses ++ [.invalid .bufferOverflow] := by
  have silent {t : State} (e : pushByte cfg b s = respond .none t) (kept : t.responses = s.responses) :
      (pushByte cfg b s).responses ≠ s.responses ++ [.invalid .bufferOverflow] := by simp [e, kept]
  obtain ⟨-, -, e⟩ | ⟨-, -, e⟩ | ⟨busy, long, -⟩ | ⟨-, -, e⟩ | ⟨-, -, -, e⟩ | ⟨-, -, -, -, e⟩ | ⟨-, -, -, -, e⟩ :=
    pushByte_cases cfg b s
  · exact silent e rfl
  · exact silent e rfl
  · exact absurd quiet (not_or.2 ⟨busy, Nat.not_le.2 long⟩)
  · exact silent e rfl
  · exact silent e rfl
  · simpa [e] using validate_response_ne_bufferOverflow cfg (accAppend s.acc cfg.endByte)
  · exact silent e rfl

/-- Settles O31: each clause from the rule that answers that byte in that state. -/
theorem overflowGuardFiresAboveTheThreshold : Obligations.OverflowGuardFiresAboveTheThreshold := by
  refine ⟨fun b s busy long => ?fires, fun b s t quiet run => ?never, fun b s t inv esc run => ?escaped,
    fun b s frame full hesc hend => ?boundary, fun s frame full => ?fin⟩
  case fires => exact exec_dfPush_of_pushByte (pushByte_overflow _ b s busy long)
  case never =>
    obtain rfl := Host.Outcome.next.inj ((exec_dfPush b s).symm.trans run)
    exact pushByte_responses_ne_bufferOverflow _ b s quiet
  case escaped =>
    obtain rfl := Host.Outcome.next.inj ((exec_dfPush b s).symm.trans run)
    obtain ⟨fits, -⟩ := inv.escape esc
    rw [pushByte_escaped _ b s esc fits, respond_responses]
  case boundary =>
    refine ⟨_, exec_dfPush_of_pushByte (pushByte_other _ b s frame full.le hesc hend), ?_, rfl⟩
    rw [respond_acc, accAppend_length, full]
  case fin => exact exec_dfPush_of_pushByte (pushByte_end _ s frame full.le (by decide))

/-- The rows of rule R118 are disjoint and cover every `(st, n, b)`. -/
theorem pushTable_exactly_one (b : Byte) (s : State) : (pushTable b s).countP (·.1) = 1 := by
  cases st : s.st with
  | idle => by_cases start : b = 0x7E#8 <;> simp [pushTable, st, start]
  | escapePending => by_cases long : 1024 < s.acc.length <;> simp [pushTable, st, long, ← Nat.not_lt]
  | inFrame =>
    by_cases long : 1024 < s.acc.length
    · simp [pushTable, st, long, ← Nat.not_lt]
    by_cases esc : b = 0x7C#8
    · simp [pushTable, st, long, ← Nat.not_lt, esc]
    by_cases fin : b = 0x7D#8 <;> simp [pushTable, st, long, ← Nat.not_lt, esc, fin]

/-- A row of rule R118 that applies says what the push does. -/
theorem exec_dfPush_row (b : Byte) (s : State) : ∀ row ∈ pushTable b s, row.1 = true →
    exec (.dfPush b) s =
      .next { s with st := row.2.1, acc := row.2.2.1, responses := s.responses ++ [row.2.2.2] } := by
  simp only [pushTable, List.forall_mem_cons, decide_eq_true_eq]
  refine ⟨fun ⟨idle, hb⟩ => ?start, fun ⟨idle, hb⟩ => ?drop, fun ⟨frame, long⟩ => ?overflow,
    fun ⟨esc, long⟩ => ?overflowEscaped, fun ⟨esc, fits⟩ => ?escaped, fun ⟨frame, fits, hb⟩ => ?escape,
    fun ⟨frame, fits, hb⟩ => ?fin, fun ⟨frame, fits, hesc, hend⟩ => ?other, by simp⟩
  case start => rw [hb]; exact exec_dfPush_of_pushByte (pushByte_idle_start _ s idle)
  case drop => rw [← idle]; exact exec_dfPush_of_pushByte (pushByte_idle_drop _ b s idle hb)
  case overflow => exact exec_dfPush_of_pushByte (pushByte_overflow _ b s (by simp [frame]) long)
  case overflowEscaped => exact exec_dfPush_of_pushByte (pushByte_overflow _ b s (by simp [esc]) long)
  case escaped => exact exec_dfPush_of_pushByte (pushByte_escaped _ b s esc fits)
  case escape => rw [hb]; exact exec_dfPush_of_pushByte (pushByte_escape _ s frame fits)
  case fin => rw [hb]; exact exec_dfPush_of_pushByte (pushByte_end _ s frame fits (by decide))
  case other => rw [← frame]; exact exec_dfPush_of_pushByte (pushByte_other _ b s frame fits hesc hend)

/-- Settles O30: one row applies, by cases on `st`, the guard and the byte; that row by the rule it stands for. -/
theorem pushFollowsTheTransitionTable : Obligations.PushFollowsTheTransitionTable :=
  fun b s => ⟨pushTable_exactly_one b s, exec_dfPush_row b s⟩

end Sys2Proof.Machine

/-! PROOFS. The validation pass (spec/42_validate.md rules R130 to R136): what each step reads, and the answer of the first
step that fails. -/

namespace Sys2Proof.Machine

/-- What an address is known to hold is what a read of it gives. -/
theorem accRead_of_accByte {m : Memory} {i : Nat} {b : Byte} (h : i < m.length) (e : accByte? m i = some b) :
    accRead m i h = b := Option.some.inj ((accRead_eq_byte m i h).symm.trans e)

/-- A half-word as the number its two bytes give. -/
theorem accHalf_toNat_of_accByte {m : Memory} {i : Nat} {lo hi : Byte} (h : i + 1 < m.length)
    (elo : accByte? m i = some lo) (ehi : accByte? m (i + 1) = some hi) :
    (accHalf m i h).toNat = lo.toNat + 256 * hi.toNat := by
  rw [accHalf_toNat, accRead_of_accByte _ elo, accRead_of_accByte _ ehi]

/-- Step 1 decides alone (rule R131). -/
theorem validate_of_small (cfg : Config) (image : Memory) (small : image.length < Config.minFrame) :
    validate cfg image = .invalid .tooSmall := dif_pos small

/-- Step 2 decides once the size is right (rule R132). -/
theorem validate_of_markersOk_false (cfg : Config) (image : Memory) (h : Config.minFrame ≤ image.length)
    (bad : markersOk cfg image h = false) : validate cfg image = .invalid .invalidMarkers := by
  obtain ⟨small, -⟩ | ⟨_, ⟨-, e⟩ | ⟨ok, -⟩ | ⟨ok, -⟩ | ⟨ok, -⟩⟩ := validate_cases cfg image
  · exact absurd h (Nat.not_le.2 small)
  · exact e
  all_goals simp [bad] at ok

/-- Steps 3 to 5, once the size and the markers are right (rules R133 to R135). -/
theorem validate_of_markersOk (cfg : Config) (image : Memory) (h : Config.minFrame ≤ image.length)
    (ok : markersOk cfg image h = true) :
    validate cfg image =
      if image.length ≠ lenField image h + Config.minFrame then .invalid .lengthMismatch
      else if crc16 (crcDomain image) ≠ chkField image h then .invalid .crcMismatch
      else .valid (messageId image h) (payloadField image) := by
  obtain ⟨small, -⟩ | ⟨_, ⟨bad, -⟩ | ⟨-, len, e⟩ | ⟨-, len, crc, e⟩ | ⟨-, len, crc, e⟩⟩ := validate_cases cfg image
  · exact absurd h (Nat.not_le.2 small)
  · simp [ok] at bad
  · rw [e, if_pos len]
  · rw [e, if_neg (not_not.2 len), if_pos crc]
  · rw [e, if_neg (not_not.2 len), if_neg (not_not.2 crc)]

/-- Settles O39: the answer of each step, with the fields of steps 3 to 5 as the bytes they are read from. -/
theorem validateRunsItsStepsInOrder : Obligations.ValidateRunsItsStepsInOrder := by
  refine fun image => ⟨validate_of_small _ image, fun h bad => ?markers,
    fun id lo hi clo chi h first last eid elo ehi eclo echi => ?fields⟩
  case markers =>
    refine validate_of_markersOk_false _ image h (Bool.eq_false_iff.2 fun ok => ?_)
    obtain ⟨first, last⟩ := (markersOk_iff _ image h).1 ok
    exact bad.elim (· first) (· last)
  case fields =>
    have above : image.length - 3 + 1 = image.length - 2 := by omega
    have len : lenField image h = lo.toNat + 256 * hi.toNat := accHalf_toNat_of_accByte _ elo ehi
    have chk : (chkField image h).toNat = clo.toNat + 256 * chi.toNat :=
      accHalf_toNat_of_accByte _ eclo (above ▸ echi)
    have msg : messageId image h = id := accRead_of_accByte _ eid
    rw [validate_of_markersOk _ image h ((markersOk_iff Config.default image h).2 ⟨first, last⟩), len, msg, ← chk]
    exact if_congr Iff.rfl rfl (if_congr BitVec.toNat_ne rfl rfl)

end Sys2Proof.Machine

/-! PROOFS. What a result leaves behind (spec/60_exceptions.md rule R155): a push that answers other than `None` ends the
frame, and the end of a frame is one update of the state, whatever the result. -/

namespace Sys2Proof.Machine

/-- The end of a frame as one update of the state (rule R155). -/
theorem finishFrame_eq (res : Result) (s : State) :
    finishFrame res s = { s with st := .idle, acc := [], responses := s.responses ++ [res.response] } := rfl

theorem response_valid_or_invalid (res : Result) :
    (∃ id p, res.response = .valid id p) ∨ ∃ why, res.response = .invalid why := by
  cases res with
  | valid id p => exact .inl ⟨id, p, rfl⟩
  | invalid why => exact .inr ⟨why, rfl⟩

/-- A push answers `None` or ends the frame with a result (rules R111 to R117). -/
theorem pushByte_none_or_finishFrame (cfg : Config) (b : Byte) (s : State) :
    (pushByte cfg b s).responses = s.responses ++ [.none] ∨ ∃ res, pushByte cfg b s = finishFrame res s := by
  obtain ⟨-, -, e⟩ | ⟨-, -, e⟩ | ⟨-, -, e⟩ | ⟨-, -, e⟩ | ⟨-, -, -, e⟩ | ⟨-, -, -, -, e⟩ | ⟨-, -, -, -, e⟩ :=
    pushByte_cases cfg b s
  case inr.inr.inl | inr.inr.inr.inr.inr.inl => exact .inr ⟨_, e⟩
  all_goals exact .inl (by rw [e, respond_responses])

/-- Settles O35: an answer other than `None` is that of a frame's end, which is one update whatever the result. -/
theorem anyResultReturnsToIdleAndNothingElse : Obligations.AnyResultReturnsToIdleAndNothingElse := by
  intro b s t r run answer notNone
  obtain rfl := Host.Outcome.next.inj ((exec_dfPush b s).symm.trans run)
  obtain silent | ⟨res, ends⟩ := pushByte_none_or_finishFrame Config.default b s
  · have isNone : r = .none := by simpa using answer.symm.trans silent
    exact absurd isNone notNone
  · obtain rfl : res.response = r := by simpa [ends] using answer
    exact ⟨response_valid_or_invalid res, ends.trans (finishFrame_eq res s)⟩

end Sys2Proof.Machine

/-! PROOFS. Reset (spec/70_reset_and_hazards.md rule R175): it puts the block in one and the same state from every state,
and the caller's responses stay as they are. -/

namespace Sys2Proof.Machine

@[simp] theorem State.reset_block : State.reset.block = (Config.crcInit, .idle, []) := rfl

/-- Whatever the block was doing, it is reset to the state it starts in. -/
@[simp] theorem resetBlock_block (s : State) : (resetBlock s).block = State.reset.block := by
  simp [State.block, State.reset]

/-- Settles O1: the reset state by its fields, any other state by `resetBlock_block`. -/
theorem resetLeavesIdleEmptyAndCrcInitial : Obligations.ResetLeavesIdleEmptyAndCrcInitial :=
  ⟨State.reset_block, fun s => ⟨(resetBlock_block s).trans State.reset_block, resetBlock_responses s⟩⟩

end Sys2Proof.Machine

/-! PROOFS. The steps (spec/00_scope.md rule R13): what a step does with the caller's next word, and that an operation is
one update of the block's triple with one answer, whatever the caller's side holds. -/

namespace Sys2Proof.Machine

/-- The new triple and the answer of an operation are fixed by the old triple, and the operation writes nothing else. -/
theorem exec_updates_from_block (i : Instr) (crc : Half) (st : RxState) (acc : Memory) :
    ∃ (crc' : Half) (st' : RxState) (acc' : Memory) (r : Response), ∀ s : State, s.block = (crc, st, acc) →
      exec i s = .next (respond r { s with crc := crc', st := st', acc := acc' }) := by
  have crcUnit (hi : i = .crcInit ∨ (∃ b, i = .crcByte b) ∨ i = .crcRead) := exec_crc_updates_from_crc i hi crc
  have deframer (hi : (∃ b, i = .dfPush b) ∨ i = .dfReset) := exec_deframer_updates_from_st_acc i hi st acc
  cases i with
  | crcInit | crcByte _ | crcRead =>
    obtain ⟨crc', r, upd⟩ := crcUnit (by simp)
    exact ⟨crc', st, acc, r, by rintro s ⟨⟩; exact upd s rfl⟩
  | dfPush _ | dfReset =>
    obtain ⟨st', acc', r, upd⟩ := deframer (by simp)
    exact ⟨crc, st', acc', r, by rintro s ⟨⟩; exact upd s rfl rfl⟩

/-- Settles O16: the update at the state, and the same update at a state that differs on the caller's side alone. -/
theorem callerSideIsNeverRead : Obligations.CallerSideIsNeverRead := by
  intro i s t run
  obtain ⟨crc, st, acc, r, upd⟩ := exec_updates_from_block i s.crc s.st s.acc
  obtain rfl := Host.Outcome.next.inj ((upd s rfl).symm.trans run)
  exact ⟨rfl, r, rfl, fun q rs => upd { s with pending := q, responses := rs } rfl⟩

theorem exec_completes (i : Instr) (s : State) : Completes (exec i s) := by
  obtain ⟨crc, st, acc, r, upd⟩ := exec_updates_from_block i s.crc s.st s.acc
  exact ⟨_, upd s rfl⟩

/-- An operation leaves the queue alone, and does the same on any other queue. -/
theorem exec_with_pending {i : Instr} {s t : State} (run : exec i s = .next t) (q : List CmdWord) :
    exec i { s with pending := q } = .next { t with pending := q } := by
  obtain ⟨-, r, answer, same⟩ := callerSideIsNeverRead i s t run
  rw [same q s.responses, ← answer]

theorem step_of_pending_nil {s : State} (h : s.pending = []) : step s = .next s := by
  simp [step, presentCommand_none s h]

/-- Settles O12: an empty queue presents no command. -/
theorem stepWithoutCommandHoldsTheState : Obligations.StepWithoutCommandHoldsTheState :=
  fun _ h => step_of_pending_nil h

/-- Settles O11: the queue presents its first word. -/
theorem stepRunsTheDecodedOperation : Obligations.StepRunsTheDecodedOperation :=
  fun s w q i h hw => by simp [step, presentCommand_some s w q h, hw]

theorem step_of_illegal {s : State} {w : CmdWord} {q : List CmdWord} {why : Illegal} (h : s.pending = w :: q)
    (hw : decode w = .illegal why) : step s = .next (respondIllegal { s with pending := q }) := by
  simp [step, presentCommand_some s w q h, hw]

/-- Settles O6: the step by `step_of_illegal`, the answers of a Result by its two forms. -/
theorem illegalWordChangesNoState : Obligations.IllegalWordChangesNoState :=
  ⟨fun _ _ _ _ h hw => step_of_illegal h hw, fun r => by cases r <;> simp⟩

/-- Everything a step can do: hold the state, run an operation, or answer an illegal word; the last two on the state with
the word taken from the queue. -/
theorem step_cases (s : State) :
    step s = .next s ∨ ∃ q : List CmdWord, (∃ i, step s = exec i { s with pending := q }) ∨
      step s = .next (respondIllegal { s with pending := q }) := by
  cases h : s.pending with
  | nil => exact .inl (step_of_pending_nil h)
  | cons w q =>
    refine .inr ⟨q, ?_⟩
    cases hw : decode w with
    | instr i => exact .inl ⟨i, stepRunsTheDecodedOperation s w q i h hw⟩
    | illegal why => exact .inr (step_of_illegal h hw)

/-- Settles O13: the three things a step can do. -/
theorem everyStepCompletes : Obligations.EveryStepCompletes := by
  refine ⟨fun s => ?_, exec_completes⟩
  obtain e | ⟨q, ⟨i, e⟩ | e⟩ := step_cases s
  · exact ⟨s, e⟩
  · rw [e]; exact exec_completes i _
  · exact ⟨_, e⟩

/-- Settles O2: the three states as updates of `s`. -/
theorem dfResetWithCrcInitIsReset : Obligations.DfResetWithCrcInitIsReset :=
  fun _ => ⟨⟨_, exec_dfReset _, rfl⟩, ⟨_, rfl, rfl⟩, ⟨_, rfl, rfl⟩⟩

end Sys2Proof.Machine

/-! PROOFS. Decoding undoes encoding (spec/30_encoding.md rules R71 to R74), so a queue of encoded operations runs as the
operations; the suggested response word (rule R78) and the assembler line (rule R79) lose nothing. -/

namespace Sys2Proof.Machine

theorem decode_encode (i : Instr) : decode (encode i) = .instr i := by
  rw [decode, encode, fieldsOfWord_wordOfFields]
  cases i <;> rfl

/-- The fields that decode to an operation are that operation's. -/
theorem eq_encodeFields_of_decodeFields {f : CmdFields} {i : Instr} (h : decodeFields f = .instr i) :
    f = encodeFields i := by
  obtain ⟨-, why, e⟩ | ⟨rfl, e⟩ | ⟨b, rfl, e⟩ | ⟨rfl, e⟩ | ⟨b, rfl, e⟩ | ⟨rfl, e⟩ := decodeFields_cases f <;>
    cases e.symm.trans h <;> rfl

/-- Settles O4: one direction by `decode_encode`, the other by the decoder's six answers. -/
theorem decodeGivesExactlyTheEncodedOperation : Obligations.DecodeGivesExactlyTheEncodedOperation := by
  refine fun w i => ⟨fun h => ?_, fun h => h ▸ decode_encode i⟩
  rw [encode, ← eq_encodeFields_of_decodeFields h, wordOfFields_fieldsOfWord]

/-- Settles O5: seven closed cases. -/
theorem writtenOutWordsDecode : Obligations.WrittenOutWordsDecode := by
  unfold Obligations.WrittenOutWordsDecode; decide

/-- A run whose first step answers a next state goes on from there. -/
theorem core_run_succ (k : Nat) {s t : State} (h : step s = .next t) :
    Host.Core.run core (k + 1) s = Host.Core.run core k t := by
  simp only [Host.Core.run, show core.step s = .next t from h]

/-- Settles O14: by induction on the operations; each is the next word's, and leaves the queue's rest where it is. -/
theorem queueRunIsTheOperationsInOrder : Obligations.QueueRunIsTheOperationsInOrder := by
  intro ops q s
  induction ops generalizing s with
  | nil => rfl
  | cons i ops ih =>
    obtain ⟨t, run⟩ := exec_completes i { s with pending := q }
    have onQueue : step { s with pending := encode i :: (ops.map encode ++ q) } =
        .next { t with pending := ops.map encode ++ q } := by
      rw [stepRunsTheDecodedOperation _ _ _ i rfl (decode_encode i)]
      exact exec_with_pending run _
    have kept : { t with pending := q } = t := by
      obtain ⟨pending, -⟩ := callerSideIsNeverRead i _ t run
      exact congrArg (fun q' => { t with pending := q' }) pending.symm
    refine (core_run_succ ops.length onQueue).trans ((ih t).trans ?_)
    rw [kept, execAll_cons _ _ _ _ run]

theorem byteField_injective : Function.Injective byteField :=
  fun _ _ h => BitVec.eq_of_toNat_eq (WordField.mk.inj h).2

theorem reason_code_injective (why why' : Reason) : why.code = why'.code → why = why' := by
  cases why <;> cases why' <;> decide

/-- The body of a response of a known kind gives back the response. -/
theorem response_eq_of_bodyFields : ∀ r r' : Response, r.kindCode = r'.kindCode → r.bodyFields = r'.bodyFields → r = r'
  | .none, .none, _, _ | .illegal, .illegal, _, _ => rfl
  | .crc v, .crc v', _, h => by
    have same : v.toNat = v'.toNat := by simpa [Response.bodyFields] using h
    rw [BitVec.eq_of_toNat_eq same]
  | .valid id p, .valid id' p', _, h => by
    obtain ⟨idSame, -, pSame⟩ : byteField id = byteField id' ∧ p.length = p'.length ∧
      p.map byteField = p'.map byteField := by simpa [Response.bodyFields] using h
    rw [byteField_injective idSame, List.map_injective_iff.2 byteField_injective pSame]
  | .invalid why, .invalid why', _, h => by
    have same : why.code.toNat = why'.code.toNat := by simpa [Response.bodyFields] using h
    rw [reason_code_injective why why' (BitVec.eq_of_toNat_eq same)]

/-- Settles O10: the first field gives the kind, the others the response of that kind. -/
theorem responseWordTellsResponsesApart : Obligations.ResponseWordTellsResponsesApart := by
  intro r r' h
  obtain ⟨kind, body⟩ := List.cons.inj h
  exact response_eq_of_bodyFields r r' (BitVec.eq_of_toNat_eq (WordField.mk.inj kind).2) body

/-- Text without `;` has no comment. -/
theorem beforeComment_of_no_semicolon (line : List Char) (h : ∀ c ∈ line, c ≠ ';') : beforeComment line = line := by
  induction line with
  | nil => rfl
  | cons c line ih =>
    obtain ⟨hc, hline⟩ := List.forall_mem_cons.1 h
    rw [beforeComment, if_neg hc, ih hline]

/-- Characters that are no space join the word being read. -/
theorem wordsFrom_append (v w rest : List Char) (h : ∀ c ∈ w, c ≠ ' ') :
    wordsFrom v (w ++ rest) = wordsFrom (v ++ w) rest := by
  induction w generalizing v with
  | nil => simp
  | cons c w ih =>
    obtain ⟨hc, hw⟩ := List.forall_mem_cons.1 h
    rw [List.cons_append, wordsFrom, if_neg hc, ih _ hw, List.append_assoc, List.singleton_append]

/-- The last word of a line. -/
theorem wordsFrom_word (w : List Char) (h : ∀ c ∈ w, c ≠ ' ') (ne : w ≠ []) : wordsFrom [] w = [w] := by
  calc wordsFrom [] w = wordsFrom w [] := by simpa using wordsFrom_append [] w [] h
    _ = [w] := by rw [wordsFrom]; exact ne

/-- A word that a space ends. -/
theorem wordsFrom_word_space (w rest : List Char) (h : ∀ c ∈ w, c ≠ ' ') (ne : w ≠ []) :
    wordsFrom [] (w ++ ' ' :: rest) = w :: wordsFrom [] rest := by
  rw [wordsFrom_append [] w _ h, List.nil_append, wordsFrom, if_pos rfl, if_neg ne]

theorem readLine_word (w : List Char) (h : ∀ c ∈ w, c ≠ ' ' ∧ c ≠ ';') (ne : w ≠ []) :
    readLine w = plainNamed w := by
  rw [readLine, beforeComment_of_no_semicolon w fun c hc => (h c hc).2,
    wordsFrom_word w (fun c hc => (h c hc).1) ne]

theorem readLine_two_words (m operand : List Char) (hm : ∀ c ∈ m, c ≠ ' ' ∧ c ≠ ';') (mne : m ≠ [])
    (ho : ∀ c ∈ operand, c ≠ ' ' ∧ c ≠ ';') (one : operand ≠ []) :
    readLine (m ++ ' ' :: operand) = (readHexByte operand).bind (byteNamed m) := by
  have noComment : ∀ c ∈ m ++ ' ' :: operand, c ≠ ';' := by
    intro c hc
    obtain hc | rfl | hc : c ∈ m ∨ c = ' ' ∨ c ∈ operand := by simpa using hc
    · exact (hm c hc).2
    · decide
    · exact (ho c hc).2
  rw [readLine, beforeComment_of_no_semicolon _ noComment, wordsFrom_word_space m _ (fun c hc => (hm c hc).1) mne,
    wordsFrom_word operand (fun c hc => (ho c hc).1) one]

theorem mnemonicChars_word (i : Instr) : (∀ c ∈ mnemonicChars i, c ≠ ' ' ∧ c ≠ ';') ∧ mnemonicChars i ≠ [] := by
  cases i <;> simp [mnemonicChars]

theorem hexByte_word (b : Byte) : ∀ c ∈ hexByte b, c ≠ ' ' ∧ c ≠ ';' := by
  have digit : ∀ n < 16, hexDigit n ≠ ' ' ∧ hexDigit n ≠ ';' := by decide
  have hb : b.toNat < 256 := b.isLt
  simp only [hexByte, List.forall_mem_cons]
  exact ⟨by decide, by decide, digit _ (by omega), digit _ (by omega), by simp⟩

/-- An operation with a byte operand reads back as the operation its mnemonic and that byte name. -/
theorem readLine_byte_operand (i : Instr) (b : Byte) :
    readLine (mnemonicChars i ++ ' ' :: hexByte b) = byteNamed (mnemonicChars i) b := by
  obtain ⟨word, ne⟩ := mnemonicChars_word i
  rw [readLine_two_words _ _ word ne (hexByte_word b) (by simp [hexByte]), readHexByte_hexByte, Option.bind_some]

/-- Settles O7: a mnemonic alone is one word, with an operand two, and each names its operation. -/
theorem assemblerLineReadsBack : Obligations.AssemblerLineReadsBack := by
  refine ⟨by decide, fun i => ?_⟩
  obtain ⟨word, ne⟩ := mnemonicChars_word i
  have alone := readLine_word _ word ne
  cases i with
  | crcInit | crcRead | dfReset => exact alone
  | crcByte b => exact readLine_byte_operand (.crcByte b) b
  | dfPush b => exact readLine_byte_operand (.dfPush b) b

end Sys2Proof.Machine

/-! PROOFS. The invariants of the block's state (spec/10_state.md rule R27): they hold after reset, and every operation, and
so every step, keeps them. -/

namespace Sys2Proof.Machine

/-- The invariants speak of `st` and `acc` alone. -/
theorem Inv.congr {cfg : Config} {s t : State} (inv : Inv cfg s) (st : t.st = s.st) (acc : t.acc = s.acc) :
    Inv cfg t :=
  ⟨acc ▸ inv.fits, fun h => acc ▸ inv.idle (st ▸ h), fun h => acc ▸ inv.inFrame (st ▸ h),
    fun h => acc ▸ inv.escape (st ▸ h)⟩

/-- A state in Idle with nothing in the accumulator meets the invariants. -/
theorem Inv.of_idle (cfg : Config) {s : State} (idle : s.st = .idle) (empty : s.acc = []) : Inv cfg s where
  fits := empty ▸ accClear_wf cfg
  idle _ := empty
  inFrame h := by rw [idle] at h; cases h
  escape h := by rw [idle] at h; cases h

/-- In a frame the accumulator begins with START, with an escape pending or not (rule R27, items 3 and 4). -/
theorem Inv.begins_with_start {cfg : Config} {s : State} (inv : Inv cfg s) (busy : s.st ≠ .idle) :
    accByte? s.acc 0 = some cfg.startByte := by
  cases st : s.st with
  | idle => exact absurd st busy
  | inFrame => exact inv.inFrame st
  | escapePending => exact (inv.escape st).2

/-- A byte appended to a frame that has room leaves it a frame. -/
theorem Inv.of_append {cfg : Config} {s t : State} (inv : Inv cfg s) (busy : s.st ≠ .idle)
    (room : s.acc.length ≤ cfg.maxAcc) {v : Byte} (st : t.st = .inFrame) (acc : t.acc = accAppend s.acc v) :
    Inv cfg t where
  fits := acc ▸ accAppend_wf cfg s.acc v room
  idle h := by rw [st] at h; cases h
  inFrame _ := by
    have start := inv.begins_with_start busy
    have nonempty : 0 ≠ accStoreAddr s.acc := by
      intro empty
      rw [accByte?, List.getElem?_eq_none (Nat.le_of_eq empty.symm)] at start
      cases start
    rw [acc, accByte_append_other _ _ _ nonempty, start]
  escape h := by rw [st] at h; cases h

/-- Every push keeps the invariants, at every configuration. -/
theorem Inv.pushByte {cfg : Config} {s : State} (inv : Inv cfg s) (b : Byte) : Inv cfg (pushByte cfg b s) := by
  obtain ⟨-, -, e⟩ | ⟨-, -, e⟩ | ⟨-, -, e⟩ | ⟨esc, room, e⟩ | ⟨frame, room, -, e⟩ | ⟨-, -, -, -, e⟩ |
    ⟨frame, room, -, -, e⟩ := pushByte_cases cfg b s <;> rw [e]
  case inl =>
    exact ⟨by simp [Memory.wf], fun h => by simp at h, fun _ => rfl, fun h => by simp at h⟩
  case inr.inl => exact inv.congr rfl rfl
  case inr.inr.inl | inr.inr.inr.inr.inr.inl => exact .of_idle cfg rfl rfl
  case inr.inr.inr.inl => exact inv.of_append (by simp [esc]) room rfl rfl
  case inr.inr.inr.inr.inl =>
    exact ⟨inv.fits, fun h => by simp at h, fun h => by simp at h, fun _ => ⟨room, inv.inFrame frame⟩⟩
  case inr.inr.inr.inr.inr.inr => exact inv.of_append (by simp [frame]) room frame rfl

/-- Every operation keeps the invariants: a CRC operation leaves `st` and `acc` alone. -/
theorem Inv.exec {i : Instr} {s t : State} (inv : Inv Config.default s) (run : exec i s = .next t) :
    Inv Config.default t := by
  cases i with
  | crcInit | crcByte _ | crcRead =>
    obtain rfl := Host.Outcome.next.inj run
    exact inv.congr rfl rfl
  | dfPush b =>
    obtain rfl := Host.Outcome.next.inj ((exec_dfPush b s).symm.trans run)
    exact inv.pushByte b
  | dfReset =>
    obtain rfl := Host.Outcome.next.inj run
    exact .of_idle _ rfl rfl

/-- Settles O18: reset leaves Idle and an empty accumulator. -/
theorem resetMeetsTheInvariant : Obligations.ResetMeetsTheInvariant :=
  ⟨.of_idle _ rfl rfl, fun cfg => .of_idle cfg rfl rfl⟩

/-- Settles O19: a step holds the state, runs an operation or answers an illegal word, and what it takes from the queue is
no part of the invariants. -/
theorem stepKeepsTheInvariant : Obligations.StepKeepsTheInvariant := by
  refine ⟨fun s t inv run => ?_, fun cfg b s inv => inv.pushByte b⟩
  obtain e | ⟨q, ⟨i, e⟩ | e⟩ := step_cases s
  · obtain rfl := Host.Outcome.next.inj (e.symm.trans run)
    exact inv
  · exact (inv.congr (t := { s with pending := q }) rfl rfl).exec (e.symm.trans run)
  · obtain rfl := Host.Outcome.next.inj (e.symm.trans run)
    exact inv.congr rfl rfl

end Sys2Proof.Machine

/-! PROOFS. The validation pass read at the bytes of the image (spec/42_validate.md rules R130 to R137): an image of seven
bytes or more is eight fields side by side, and `VALIDATE` is a few comparisons between them. -/

namespace Sys2Proof.Machine

/-- The image of a frame by its fields (rule R67): START, message id, length, payload, checksum, END. -/
def frameImage (start id lo hi : Byte) (p : List Byte) (clo chi fin : Byte) : List Byte :=
  start :: id :: lo :: hi :: (p ++ [clo, chi, fin])

@[simp] theorem frameImage_length (start id lo hi : Byte) (p : List Byte) (clo chi fin : Byte) :
    (frameImage start id lo hi p clo chi fin).length = p.length + 7 := by
  simp [frameImage]

/-- Seven bytes or more are the eight fields of a frame. -/
theorem exists_eq_frameImage (image : List Byte) (h : Config.minFrame ≤ image.length) :
    ∃ start id lo hi p clo chi fin, image = frameImage start id lo hi p clo chi fin := by
  match image, h with
  | start :: id :: lo :: hi :: rest, h =>
    have three : 3 ≤ rest.length := Nat.le_of_add_le_add_right (b := 4) h
    have last : (rest.drop (rest.length - 3)).length = 3 := by rw [List.length_drop]; omega
    obtain ⟨clo, chi, fin, e⟩ := List.length_eq_three.1 last
    exact ⟨start, id, lo, hi, rest.take (rest.length - 3), clo, chi, fin, by
      rw [frameImage, ← e, List.take_append_drop]⟩

section
variable (cfg : Config) (start id lo hi : Byte) (p : List Byte) (clo chi fin : Byte)

theorem crcDomain_frameImage : crcDomain (frameImage start id lo hi p clo chi fin) = id :: lo :: hi :: p := by
  simp [crcDomain, slice, frameImage]

theorem payloadField_frameImage : payloadField (frameImage start id lo hi p clo chi fin) = p := by
  simp [payloadField, slice, frameImage]

variable (h : Config.minFrame ≤ (frameImage start id lo hi p clo chi fin).length)

theorem messageId_frameImage : messageId (frameImage start id lo hi p clo chi fin) h = id := rfl

theorem lenField_frameImage :
    lenField (frameImage start id lo hi p clo chi fin) h = lo.toNat + 256 * hi.toNat := accHalf_toNat _ 2 _

theorem chkField_frameImage : chkField (frameImage start id lo hi p clo chi fin) h = chi ++ clo := by
  simp [chkField, accHalf, accRead, frameImage]

theorem markersOk_frameImage :
    markersOk cfg (frameImage start id lo hi p clo chi fin) h = true ↔ start = cfg.startByte ∧ fin = cfg.endByte := by
  simp [markersOk, accRead, frameImage]

end

/-- `VALIDATE` on an image whose markers are right, by its fields (rules R133 to R135). -/
theorem validate_frameImage (cfg : Config) (id lo hi : Byte) (p : List Byte) (clo chi : Byte) :
    validate cfg (frameImage cfg.startByte id lo hi p clo chi cfg.endByte) =
      if p.length ≠ lo.toNat + 256 * hi.toNat then .invalid .lengthMismatch
      else if crc16 (id :: lo :: hi :: p) ≠ chi ++ clo then .invalid .crcMismatch
      else .valid id p := by
  have h : Config.minFrame ≤ (frameImage cfg.startByte id lo hi p clo chi cfg.endByte).length := by simp
  rw [validate_of_markersOk cfg _ h ((markersOk_frameImage cfg _ _ _ _ _ _ _ _ h).2 ⟨rfl, rfl⟩),
    lenField_frameImage, crcDomain_frameImage, chkField_frameImage, messageId_frameImage, payloadField_frameImage]
  simp

/-- A length field that is not the payload's length. -/
theorem validate_lengthMismatch (cfg : Config) {id lo hi : Byte} {p : List Byte} {clo chi : Byte}
    (len : p.length ≠ lo.toNat + 256 * hi.toNat) :
    validate cfg (frameImage cfg.startByte id lo hi p clo chi cfg.endByte) = .invalid .lengthMismatch := by
  rw [validate_frameImage, if_pos len]

/-- The right length field and a checksum field that is not the checksum. -/
theorem validate_crcMismatch (cfg : Config) {id lo hi : Byte} {p : List Byte} {clo chi : Byte}
    (len : p.length = lo.toNat + 256 * hi.toNat) (crc : crc16 (id :: lo :: hi :: p) ≠ chi ++ clo) :
    validate cfg (frameImage cfg.startByte id lo hi p clo chi cfg.endByte) = .invalid .crcMismatch := by
  rw [validate_frameImage, if_neg (not_not.2 len), if_pos crc]

/-- Valid is answered for an image with the right markers, length field and checksum, and for no other. -/
theorem validate_eq_valid_iff (cfg : Config) (image : List Byte) (id : Byte) (p : List Byte) :
    validate cfg image = .valid id p ↔ ∃ lo hi clo chi,
      image = frameImage cfg.startByte id lo hi p clo chi cfg.endByte ∧
      p.length = lo.toNat + 256 * hi.toNat ∧ crc16 (id :: lo :: hi :: p) = chi ++ clo := by
  constructor
  · intro valid
    obtain ⟨-, e⟩ | ⟨h, ⟨-, e⟩ | ⟨-, -, e⟩ | ⟨-, -, -, e⟩ | ⟨ok, len, crc, e⟩⟩ := validate_cases cfg image
    case inr.inr.inr.inr =>
      obtain ⟨start, id', lo, hi, p', clo, chi, fin, rfl⟩ := exists_eq_frameImage image h
      obtain ⟨rfl, rfl⟩ := (markersOk_frameImage cfg _ _ _ _ _ _ _ _ h).1 ok
      rw [e, messageId_frameImage, payloadField_frameImage] at valid
      obtain ⟨rfl, rfl⟩ := Result.valid.inj valid
      rw [lenField_frameImage, frameImage_length] at len
      rw [crcDomain_frameImage, chkField_frameImage] at crc
      exact ⟨lo, hi, clo, chi, rfl, Nat.add_right_cancel len, crc⟩
    all_goals rw [e] at valid; cases valid
  · rintro ⟨lo, hi, clo, chi, rfl, len, crc⟩
    rw [validate_frameImage, if_neg (not_not.2 len), if_neg (not_not.2 crc)]

/-- Two bytes are those of a number below 65536 when they are its value, low byte first (rule R44). -/
theorem leBytes_eq_iff {n : Nat} (h : n < 65536) (lo hi : Byte) :
    leBytes n = [lo, hi] ↔ n = lo.toNat + 256 * hi.toNat := by
  have hlo : lo.toNat < 256 := lo.isLt
  have hhi : hi.toNat < 256 := hi.isLt
  simp only [leBytes, List.cons.injEq, and_true, ← BitVec.toNat_inj, BitVec.toNat_ofNat]
  omega

/-- The bytes of a half-word are its halves, low byte first. -/
theorem leBytes_append (hi lo : Byte) : leBytes (hi ++ lo : Half).toNat = [lo, hi] := by
  rw [leBytes_toNat, BitVec.extractLsb'_append_eq_right, BitVec.extractLsb'_append_eq_left]

/-- An image with START and END whose length field is right, as a sender writes it: the checksum decides. -/
theorem validate_frameBody (cfg : Config) (id : Byte) (p : List Byte) (chk : Half) (short : p.length < 65536) :
    validate cfg (cfg.startByte :: (frameBody id p.length p ++ leBytes chk.toNat) ++ [cfg.endByte]) =
      if crc16 (frameBody id p.length p) = chk then .valid id p else .invalid .crcMismatch := by
  have fields : cfg.startByte :: (frameBody id p.length p ++ leBytes chk.toNat) ++ [cfg.endByte] =
      frameImage cfg.startByte id (.ofNat 8 (p.length % 256)) (.ofNat 8 (p.length / 256)) p
        (chk.extractLsb' 0 8) (chk.extractLsb' 8 8) cfg.endByte := by
    simp [frameBody, frameImage, leBytes_toNat]
    rfl
  have halves : chk.extractLsb' 8 8 ++ chk.extractLsb' 0 8 = chk := BitVec.extractLsb'_append_extractLsb'
  rw [fields, validate_frameImage, leBytes_read _ short, halves, if_neg (not_not.2 rfl), ite_not]
  rfl

/-- Settles O40: the fields of an accepted image are the bytes a sender writes, and `VALIDATE` accepts those. -/
theorem validExactlyForFrameImages : Obligations.ValidExactlyForFrameImages := by
  intro image id p
  constructor
  · intro valid
    obtain ⟨lo, hi, clo, chi, rfl, len, crc⟩ := (validate_eq_valid_iff _ _ _ _).1 valid
    have hlo : lo.toNat < 256 := lo.isLt
    have hhi : hi.toNat < 256 := hi.isLt
    have short : p.length < 65536 := by omega
    have lenBytes : leBytes p.length = [lo, hi] := (leBytes_eq_iff short lo hi).2 len
    have crcBytes : leBytes (crc16 ([id] ++ [lo, hi] ++ p)).toNat = [clo, chi] := by
      rw [← leBytes_append chi clo, ← crc]; rfl
    refine ⟨short, ?_⟩
    rw [lenBytes, crcBytes]
    simp [frameImage, Config.default]
  · rintro ⟨short, rfl⟩
    have accepted := validate_frameBody Config.default id p (crc16 (frameBody id p.length p)) short
    rw [if_pos rfl] at accepted
    simpa [frameBody, Config.default] using accepted

end Sys2Proof.Machine

/-! PROOFS. A changed byte between the markers of an accepted image (spec/40_crc16.md rule R99): the CRC tells any two byte
sequences apart that differ in one byte. -/

namespace Sys2Proof.Machine

/-- No two registers become one over the same bytes. -/
theorem crcFold_injective (bytes : List Byte) : Function.Injective fun c : Half => crcFold c bytes := by
  induction bytes with
  | nil => exact fun _ _ h => h
  | cons b bytes ih => exact fun _ _ h => (crc16Update_bijective b).1 (ih h)

/-- One changed byte changes the checksum. -/
theorem crc16_modify_ne {f : Byte → Byte} (changes : ∀ b, f b ≠ b) (bytes : List Byte) (i : Nat)
    (h : i < bytes.length) : crc16 (bytes.modify i f) ≠ crc16 bytes := by
  obtain ⟨l, b, r, rfl, -, e⟩ := List.exists_of_modify f h
  rw [e]
  intro same
  simp only [crc16, crcFold_append, crcFold_cons] at same
  exact changes b (crc16Update_injective_byte _ (crcFold_injective r same))

theorem modify_append_left {α : Type} (f : α → α) (l r : List α) (i : Nat) (h : i < l.length) :
    (l ++ r).modify i f = l.modify i f ++ r := by
  induction l generalizing i with
  | nil => simp at h
  | cons a l ih =>
    cases i with
    | zero => rfl
    | succ i => simp [ih i (Nat.lt_of_succ_lt_succ h)]

theorem modify_append_right {α : Type} (f : α → α) (l r : List α) (i : Nat) :
    (l ++ r).modify (l.length + i) f = l ++ r.modify i f := by
  induction l with
  | nil => simp
  | cons a l ih => rw [List.cons_append, List.length_cons, Nat.add_right_comm, List.modify_succ_cons, ih]; rfl

/-- A half-word with one half changed is another half-word. -/
theorem append_eq_append_iff (hi lo hi' lo' : Byte) : (hi ++ lo : Half) = hi' ++ lo' ↔ hi = hi' ∧ lo = lo' := by
  constructor
  · intro h
    have bytes := congrArg (fun v : Half => leBytes v.toNat) h
    simp only [leBytes_append, List.cons.injEq, and_true] at bytes
    exact bytes.symm
  · rintro ⟨rfl, rfl⟩; rfl

/-- The bytes from address 4 on are the payload's, then the checksum's. -/
theorem frameImage_modify_payload (f : Byte → Byte) (start id lo hi : Byte) (p : List Byte) (clo chi fin : Byte)
    (j : Nat) (h : j < p.length) :
    (frameImage start id lo hi p clo chi fin).modify (j + 4) f =
      frameImage start id lo hi (p.modify j f) clo chi fin := by
  simp [frameImage, modify_append_left f p _ j h]

theorem frameImage_modify_tail (f : Byte → Byte) (start id lo hi : Byte) (p : List Byte) (clo chi fin : Byte)
    (k : Nat) :
    (frameImage start id lo hi p clo chi fin).modify (p.length + k + 4) f =
      start :: id :: lo :: hi :: (p ++ [clo, chi, fin].modify k f) := by
  simp [frameImage, modify_append_right]

/-- Changing one byte between the markers of an accepted image: a length byte no longer gives the length, and any other
byte is on one side only of the comparison of the checksums (rules R99 and R133). -/
theorem validate_modify {cfg : Config} {image : List Byte} {id : Byte} {p : List Byte} {f : Byte → Byte}
    (changes : ∀ b, f b ≠ b) (valid : validate cfg image = .valid id p) (i : Nat) (low : 1 ≤ i)
    (high : i + 2 ≤ image.length) :
    validate cfg (image.modify i f) = .invalid (if i = 2 ∨ i = 3 then .lengthMismatch else .crcMismatch) := by
  obtain ⟨lo, hi, clo, chi, rfl, len, crc⟩ := (validate_eq_valid_iff _ _ _ _).1 valid
  have domain (d : Nat) (hd : d < p.length + 3) : crc16 ((id :: lo :: hi :: p).modify d f) ≠ chi ++ clo :=
    crc ▸ crc16_modify_ne changes _ d hd
  rw [frameImage_length] at high
  match i with
  | 1 => exact validate_crcMismatch cfg (id := f id) len (domain 0 (by omega))
  | 2 =>
    have changed : (f lo).toNat ≠ lo.toNat := BitVec.toNat_ne.1 (changes lo)
    exact validate_lengthMismatch cfg (lo := f lo) (by omega)
  | 3 =>
    have changed : (f hi).toNat ≠ hi.toNat := BitVec.toNat_ne.1 (changes hi)
    exact validate_lengthMismatch cfg (hi := f hi) (by omega)
  | j + 4 =>
    rw [if_neg (by omega)]
    rcases Nat.lt_or_ge j p.length with payload | checksum
    · rw [frameImage_modify_payload f _ _ _ _ _ _ _ _ j payload]
      exact validate_crcMismatch cfg (by rw [List.length_modify, len]) (domain (j + 3) (by omega))
    obtain ⟨k, rfl⟩ := Nat.exists_eq_add_of_le checksum
    rw [frameImage_modify_tail]
    obtain rfl | rfl : k = 0 ∨ k = 1 := by omega
    · refine validate_crcMismatch cfg (clo := f clo) len fun same => changes clo ?_
      exact ((append_eq_append_iff _ _ _ _).1 (crc.symm.trans same)).2.symm
    · refine validate_crcMismatch cfg (chi := f chi) len fun same => changes chi ?_
      exact ((append_eq_append_iff _ _ _ _).1 (crc.symm.trans same)).1.symm

/-- Flipping a bit of a byte changes it. -/
theorem xor_twoPow_ne {k : Nat} (hk : k < 8) (b : Byte) : b ^^^ BitVec.twoPow 8 k ≠ b := by
  intro h
  have bit := congrArg (fun v => v.getLsbD k) h
  simp [hk] at bit

/-- Settles O41: outside the length bytes `validate_modify` answers CRC mismatch. -/
theorem singleBitChangeIsCrcMismatch : Obligations.SingleBitChangeIsCrcMismatch := by
  intro image id p i k valid hk hi
  obtain ⟨lo, hi', clo, chi, shape, -⟩ := (validate_eq_valid_iff _ _ _ _).1 valid
  have long : image.length = p.length + 7 := by rw [shape, frameImage_length]
  rw [validate_modify (xor_twoPow_ne hk) valid i (by omega) (by omega), if_neg (by omega)]

end Sys2Proof.Machine

/-! PROOFS. What a push answers (spec/41_deframer.md rule R120): `None`, buffer overflow from the guard, or what `VALIDATE`
says of the frame an END completes; and what the invariants leave `VALIDATE` to say. -/

namespace Sys2Proof.Machine

/-- A push answers `None` unless the guard fires or an END arrives in a frame, and it is one of the three. -/
theorem pushByte_answer_cases (cfg : Config) (b : Byte) (s : State) :
    ((pushByte cfg b s).responses = s.responses ++ [.none] ∧ (s.st = .idle ∨ s.acc.length ≤ cfg.maxAcc) ∧
      ¬(s.st = .inFrame ∧ b ≠ cfg.escByte ∧ b = cfg.endByte)) ∨
    (s.st ≠ .idle ∧ cfg.maxAcc < s.acc.length ∧ pushByte cfg b s = finishFrame (.invalid .bufferOverflow) s) ∨
    (s.st = .inFrame ∧ s.acc.length ≤ cfg.maxAcc ∧ b ≠ cfg.escByte ∧ b = cfg.endByte ∧
      pushByte cfg b s = finishFrame (validate cfg (accAppend s.acc cfg.endByte)) s) := by
  obtain ⟨idle, -, e⟩ | ⟨idle, -, e⟩ | overflow | ⟨esc, room, e⟩ | ⟨-, room, isEsc, e⟩ | fin | ⟨-, room, -, notEnd, e⟩ :=
    pushByte_cases cfg b s
  · exact .inl ⟨by simp [e], .inl idle, by simp [idle]⟩
  · exact .inl ⟨by simp [e], .inl idle, by simp [idle]⟩
  · exact .inr (.inl overflow)
  · exact .inl ⟨by simp [e], .inr room, by simp [esc]⟩
  · exact .inl ⟨by simp [e], .inr room, fun h => h.2.1 isEsc⟩
  · exact .inr (.inr fin)
  · exact .inl ⟨by simp [e], .inr room, fun h => notEnd h.2.2⟩

/-- A frame's end is answered with its result, which is not `None`. -/
theorem finishFrame_responses_ne_none (res : Result) (s : State) :
    (finishFrame res s).responses ≠ s.responses ++ [.none] := by
  simpa using response_ne_none res

/-- Settles O34: each of the three answers of a push meets one side of the equivalence. -/
theorem resultsOnlyFromTheGuardOrAnEnd : Obligations.ResultsOnlyFromTheGuardOrAnEnd := by
  intro b s t run
  obtain rfl := Host.Outcome.next.inj ((exec_dfPush b s).symm.trans run)
  obtain ⟨none, quiet, notEnd⟩ | ⟨busy, long, e⟩ | ⟨frame, room, -, isEnd, e⟩ :=
    pushByte_answer_cases Config.default b s
  · refine iff_of_false (not_not.2 none) ?_
    rintro (⟨busy, long⟩ | ⟨frame, -, rfl⟩)
    · exact quiet.elim busy (Nat.not_le.2 long)
    · exact notEnd ⟨frame, by decide, rfl⟩
  · exact iff_of_true (e ▸ finishFrame_responses_ne_none _ s) (.inl ⟨busy, long⟩)
  · exact iff_of_true (e ▸ finishFrame_responses_ne_none _ s) (.inr ⟨frame, room, isEnd⟩)

theorem response_injective : Function.Injective Result.response := by
  intro res res' h
  cases res <;> cases res' <;> simp_all

/-- A result that a push answers is the guard's or `VALIDATE`'s (rule R120). -/
theorem result_of_pushByte {cfg : Config} {b : Byte} {s : State} {res : Result}
    (answer : (pushByte cfg b s).responses = s.responses ++ [res.response]) :
    (s.st ≠ .idle ∧ cfg.maxAcc < s.acc.length ∧ res = .invalid .bufferOverflow) ∨
    (s.st = .inFrame ∧ s.acc.length ≤ cfg.maxAcc ∧ res = validate cfg (accAppend s.acc cfg.endByte)) := by
  have ofEnd {res' : Result} (e : pushByte cfg b s = finishFrame res' s) : res = res' := by
    apply response_injective
    simpa [e] using answer.symm
  obtain ⟨none, -⟩ | ⟨busy, long, e⟩ | ⟨frame, room, -, -, e⟩ := pushByte_answer_cases cfg b s
  · have isNone : res.response = .none := by simpa [none] using answer.symm
    exact absurd isNone (response_ne_none res)
  · exact .inl ⟨busy, long, ofEnd e⟩
  · exact .inr ⟨frame, room, ofEnd e⟩

/-- An image that begins with START and ends with END has its markers right (rule R132). -/
theorem validate_ne_invalidMarkers (cfg : Config) (m : Memory) (start : accByte? m 0 = some cfg.startByte) :
    validate cfg (accAppend m cfg.endByte) ≠ .invalid .invalidMarkers := by
  have nonempty : 0 < m.length := (List.getElem?_eq_some_iff.1 start).1
  have first : accByte? (accAppend m cfg.endByte) 0 = some cfg.startByte := by
    rw [accByte_append_other m _ 0 (Nat.ne_of_lt nonempty), start]
  have last : accByte? (accAppend m cfg.endByte) ((accAppend m cfg.endByte).length - 1) = some cfg.endByte := by
    rw [accAppend_length, Nat.add_sub_cancel]
    exact accByte_append_at m _
  obtain ⟨-, e⟩ | ⟨h, ⟨bad, -⟩ | ⟨-, -, e⟩ | ⟨-, -, -, e⟩ | ⟨-, -, -, e⟩⟩ :=
    validate_cases cfg (accAppend m cfg.endByte)
  case inr.inl => rw [(markersOk_iff cfg _ h).2 ⟨first, last⟩] at bad; cases bad
  all_goals rw [e]; simp

/-- Settles O37: the guard answers another reason, and `VALIDATE` sees START first by the invariant and END last. -/
theorem invalidMarkersIsNeverAnswered : Obligations.InvalidMarkersIsNeverAnswered := by
  intro b s t inv run answer
  obtain rfl := Host.Outcome.next.inj ((exec_dfPush b s).symm.trans run)
  obtain ⟨-, -, e⟩ | ⟨frame, -, e⟩ := result_of_pushByte (res := .invalid .invalidMarkers) answer
  · cases e
  · exact validate_ne_invalidMarkers _ s.acc (inv.inFrame frame) e.symm

/-- Settles O38: the accepted image is the accumulator and END, seven bytes more than the payload. -/
theorem payloadIsBoundedByTheThreshold : Obligations.PayloadIsBoundedByTheThreshold := by
  intro cfg b s id p _ answer
  obtain ⟨-, -, e⟩ | ⟨-, room, e⟩ := result_of_pushByte (res := .valid id p) answer
  · cases e
  · obtain ⟨lo, hi, clo, chi, image, -⟩ := (validate_eq_valid_iff _ _ _ _).1 e.symm
    have long := congrArg List.length image
    rw [accAppend_length, frameImage_length] at long
    omega

/-- Settles O15: the kinds by the five operations' updates, the bound by `payloadIsBoundedByTheThreshold` at the source's
threshold, the illegal word by `step_of_illegal`. -/
theorem oneResponseOfTheNamedKind : Obligations.OneResponseOfTheNamedKind := by
  refine ⟨fun i s => ?kind, fun b s t id p inv run answer => ?bound, fun s w q why h hw => ?illegal⟩
  case kind =>
    cases i with
    | crcInit => exact ⟨_, .none, exec_crcInit s, rfl, rfl⟩
    | crcByte b => exact ⟨_, .none, exec_crcByte b s, rfl, rfl⟩
    | crcRead => exact ⟨_, .crc s.crc, exec_crcRead s, rfl, rfl⟩
    | dfReset => exact ⟨_, .none, exec_dfReset s, rfl, rfl⟩
    | dfPush b =>
      obtain none | ⟨res, ends⟩ := pushByte_none_or_finishFrame Config.default b s
      · exact ⟨_, .none, exec_dfPush b s, none, .inl rfl⟩
      · exact ⟨_, res.response, exec_dfPush b s, by rw [ends, finishFrame_responses],
          .inr (response_valid_or_invalid res)⟩
  case bound =>
    obtain rfl := Host.Outcome.next.inj ((exec_dfPush b s).symm.trans run)
    have fits := payloadIsBoundedByTheThreshold Config.default b s id p inv answer
    rw [Config.default_maxAcc] at fits
    omega
  case illegal => exact ⟨_, step_of_illegal h hw, respondIllegal_responses _⟩

/-- Only ESCAPE leaves an escape pending (rule R115). -/
theorem pushByte_st_ne_escapePending (cfg : Config) (b : Byte) (s : State) (notEsc : b ≠ cfg.escByte) :
    (pushByte cfg b s).st ≠ .escapePending := by
  obtain ⟨-, -, e⟩ | ⟨idle, -, e⟩ | ⟨-, -, e⟩ | ⟨-, -, e⟩ | ⟨-, -, isEsc, -⟩ | ⟨-, -, -, -, e⟩ | ⟨frame, -, -, -, e⟩ :=
    pushByte_cases cfg b s
  case inr.inr.inr.inr.inl => exact absurd isEsc notEsc
  all_goals rw [e]; simp [*]

/-- With no escape pending an END leads to Idle: it is dropped there, or it ends the frame (rules R112, R113, R116). -/
theorem pushByte_end_st (cfg : Config) (s : State) (notPending : s.st ≠ .escapePending)
    (notStart : cfg.endByte ≠ cfg.startByte) (notEsc : cfg.endByte ≠ cfg.escByte) :
    (pushByte cfg cfg.endByte s).st = .idle := by
  obtain ⟨-, isStart, -⟩ | ⟨idle, -, e⟩ | ⟨-, -, e⟩ | ⟨pending, -⟩ | ⟨-, -, isEsc, -⟩ | ⟨-, -, -, -, e⟩ |
    ⟨-, -, -, notEnd, -⟩ := pushByte_cases cfg cfg.endByte s
  · exact absurd isStart notStart
  · rw [e, respond_st, idle]
  · rw [e, finishFrame_st]
  · exact absurd pending notPending
  · exact absurd isEsc notEsc
  · rw [e, finishFrame_st]
  · exact absurd rfl notEnd

/-- Settles O36: 0x00 takes a pending escape with it, and END then ends what frame there is. -/
theorem zeroThenEndLeadsToIdle : Obligations.ZeroThenEndLeadsToIdle := fun s =>
  ⟨_, execAll_dfFeed [0x00, 0x7D] s, pushByte_end_st Config.default _
    (pushByte_st_ne_escapePending _ 0x00 s (by decide)) (by decide) (by decide)⟩

end Sys2Proof.Machine

/-! PROOFS. What a stuffed stream leaves in the accumulator (spec/41_deframer.md rule R122), and so what a frame is answered
that a sender stuffs between its markers (spec/30_encoding.md rules R65 and R66). -/

namespace Sys2Proof.Machine

/-- A stream that ends with no escape pending, and is not empty, unstuffs to a byte or more. -/
theorem unstuffFrom_ne_nil {cfg : Config} {pending : Bool} {w : List Byte} (ne : w ≠ [])
    (complete : (unstuffFrom cfg pending w).2 = false) : (unstuffFrom cfg pending w).1 ≠ [] := by
  match pending, w with
  | _, [] => exact absurd rfl ne
  | true, _ :: _ => simp [unstuffFrom]
  | false, b :: w =>
    by_cases esc : b = cfg.escByte
    · subst esc
      rw [unstuffFrom_escape] at complete ⊢
      cases w with
      | nil => cases complete
      | cons x w => simp [unstuffFrom]
    · simp [unstuffFrom_plain cfg b w esc]

/-- A complete stream, cut short, unstuffs to fewer bytes. -/
theorem unstuffFrom_take_length_lt {cfg : Config} {pending : Bool} {w : List Byte} {k : Nat} (h : k < w.length)
    (complete : (unstuffFrom cfg pending w).2 = false) :
    (unstuffFrom cfg pending (w.take k)).1.length < (unstuffFrom cfg pending w).1.length := by
  rw [← List.take_append_drop k w, unstuffFrom_append] at complete
  have rest := unstuffFrom_ne_nil (by simpa using h) complete
  conv_rhs => rw [← List.take_append_drop k w, unstuffFrom_append, List.length_append]
  exact Nat.lt_add_of_pos_right (List.length_pos_iff.2 rest)

/-- The wire bytes of one byte hold no unescaped END. -/
theorem noPlainEndFrom_stuffByte (cfg : Config) (distinct : cfg.endByte ≠ cfg.escByte) (b : Byte) (w : List Byte) :
    noPlainEndFrom cfg false (stuffByte cfg b ++ w) = noPlainEndFrom cfg false w := by
  unfold stuffByte
  split
  · simp [noPlainEndFrom, distinct.symm]
  case isFalse plain =>
    obtain ⟨⟨-, notEnd⟩, notEsc⟩ : (b ≠ cfg.startByte ∧ b ≠ cfg.endByte) ∧ b ≠ cfg.escByte := by
      simpa [Config.isSpecial] using plain
    rw [List.singleton_append, noPlainEndFrom, bne_iff_ne.2 notEnd, beq_false_of_ne notEsc, Bool.true_and]

theorem noPlainEnd_stuff (cfg : Config) (distinct : cfg.endByte ≠ cfg.escByte) (u : List Byte) :
    noPlainEnd cfg (stuff cfg u) = true := by
  unfold noPlainEnd
  induction u with
  | nil => rfl
  | cons b u ih => rw [stuff_cons, noPlainEndFrom_stuffByte cfg distinct, ih]

/-- Settles O43: any stream by `pushAll_start_stream`; a stuffed one unstuffs to its bytes, and to fewer where it is cut
short, so the guard does not fire. -/
theorem accumulatorIsTheUnstuffedStream : Obligations.AccumulatorIsTheUnstuffedStream := by
  have anyStream : ∀ (w : List Byte) (s : State), s.st = .idle → noPlainEnd Config.default w = true →
      (∀ k < w.length, (unstuff Config.default (w.take k)).1.length + 1 ≤ 1024) →
      execAll (dfFeed (0x7E :: w)) s = .next { s with
        st := if (unstuff Config.default w).2 then .escapePending else .inFrame
        acc := 0x7E :: (unstuff Config.default w).1
        responses := s.responses ++ List.replicate (w.length + 1) .none } := by
    intro w s idle noEnd fits
    have fed := execAll_dfFeed (0x7E :: w) s
    rw [← Config.default_startByte, pushAll_start_stream Config.default w s idle noEnd fits] at fed
    rw [← Config.default_startByte, fed]
    cases (unstuff Config.default w).2 <;> rfl
  refine ⟨anyStream, fun u s idle short => ?_⟩
  have back := unstuff_stuff Config.default u
  have complete : (unstuff Config.default (stuff Config.default u)).2 = false := by rw [back]
  rw [anyStream _ s idle (noPlainEnd_stuff _ (by decide) u) fun k hk => ?_, back]
  · rfl
  · have less := unstuffFrom_take_length_lt hk complete
    rw [← unstuff, ← unstuff, back] at less
    exact Nat.le_trans less short

/-- START, up to 1023 bytes stuffed and END from Idle: the frame is validated with the bytes unstuffed. -/
theorem execAll_stuffed_frame (u : List Byte) (s : State) (idle : s.st = .idle) (empty : s.acc = [])
    (short : u.length ≤ 1023) :
    execAll (dfFeed (0x7E :: stuff Config.default u ++ [0x7D])) s = .next { s with
      responses := s.responses ++ List.replicate ((stuff Config.default u).length + 1) .none ++
        [(validate Config.default (0x7E :: u ++ [0x7D])).response] } := by
  have back := unstuff_stuff Config.default u
  obtain ⟨completes, -⟩ := firstUnescapedEndCompletesTheFrame (stuff Config.default u) s idle empty
    (noPlainEnd_stuff _ (by decide) u) (by rw [back]; exact Nat.succ_le_succ short)
  rw [completes (by rw [back]), back]

/-- A message and a checksum, stuffed between the markers, are answered by the comparison of the checksums. -/
theorem execAll_stuffed_message (id : Byte) (p : List Byte) (chk : Half) (s : State) (idle : s.st = .idle)
    (empty : s.acc = []) (short : p.length ≤ 1018) :
    execAll (dfFeed (0x7E :: stuff Config.default (frameBody id p.length p ++ leBytes chk.toNat) ++ [0x7D])) s =
      .next { s with
        responses := s.responses ++
          List.replicate ((stuff Config.default (frameBody id p.length p ++ leBytes chk.toNat)).length + 1) .none ++
          [if crc16 (frameBody id p.length p) = chk then .valid id p else .invalid .crcMismatch] } := by
  have verdict := validate_frameBody Config.default id p chk (by omega)
  rw [Config.default_startByte, Config.default_endByte] at verdict
  rw [execAll_stuffed_frame _ s idle empty (by simp; omega), verdict]
  split <;> rfl

/-- The frame `wire_rx` sends, where it is defined (rule R66). -/
theorem wireRx_eq (id : Byte) (p : List Byte) (short : p.length ≤ 1018) :
    wireRx Config.default id p = some (0x7E :: stuff Config.default (frameBody id p.length p ++
      leBytes (crc16 (frameBody id p.length p)).toNat) ++ [0x7D]) :=
  if_pos ⟨by rw [Config.default_maxAcc]; omega, by omega⟩

/-- Settles O44: the checksum `wire_rx` sends is that of the message. -/
theorem wireRxFramesAreAccepted : Obligations.WireRxFramesAreAccepted := by
  intro id p s short idle empty
  refine ⟨_, wireRx_eq id p short, ?_⟩
  rw [execAll_stuffed_message id p _ s idle empty short, if_pos rfl]
  simp

/-- Stuffing leaves bytes alone none of which is special (rule R62). -/
theorem stuff_eq_self {cfg : Config} {bytes : List Byte} (plain : ∀ b ∈ bytes, cfg.isSpecial b = false) :
    stuff cfg bytes = bytes := by
  induction bytes with
  | nil => rfl
  | cons b bytes ih =>
    obtain ⟨hb, hbytes⟩ := List.forall_mem_cons.1 plain
    rw [stuff_cons, ih hbytes, stuffByte, hb]
    rfl

/-- A special byte leaves its ESCAPE in the stuffed bytes, so bytes with no special byte in them stuffed have none. -/
theorem not_isSpecial_of_stuff {cfg : Config} {bytes : List Byte}
    (plain : ∀ b ∈ stuff cfg bytes, cfg.isSpecial b = false) : ∀ b ∈ bytes, cfg.isSpecial b = false := by
  intro b hb
  by_contra special
  have escape : cfg.escByte ∈ stuff cfg bytes :=
    List.mem_flatMap.2 ⟨b, hb, by simp [stuffByte, special]⟩
  simpa [Config.isSpecial] using plain _ escape

theorem stuff_append (cfg : Config) (u v : List Byte) : stuff cfg (u ++ v) = stuff cfg u ++ stuff cfg v :=
  List.flatMap_append

/-- The frame of the source's sender, where it is defined (rule R64). -/
theorem frame_eq {id : Byte} {p F : List Byte} (sent : frame Config.default id p = some F) :
    F = 0x7E :: (frameBody id p.length (stuff Config.default p) ++
      leBytes (crc16 (frameBody id p.length (stuff Config.default p))).toNat) ++ [0x7D] := by
  unfold frame at sent
  split at sent
  · exact (Option.some.inj sent).symm
  · cases sent

/-- Settles O45: with no special byte between the markers stuffing changes nothing, so both senders send one frame. -/
theorem escapeFreeFramesAreAccepted : Obligations.EscapeFreeFramesAreAccepted := by
  intro id p F s short sent plain idle empty
  have shape := frame_eq sent
  have between : F.tail.dropLast = frameBody id p.length (stuff Config.default p) ++
      leBytes (crc16 (frameBody id p.length (stuff Config.default p))).toNat := by simp [shape]
  rw [between] at plain
  have same : stuff Config.default p = p := stuff_eq_self (not_isSpecial_of_stuff fun b hb =>
    plain b (by simp [frameBody, hb]))
  rw [same] at shape plain
  have isWireRx : wireRx Config.default id p = some F := by rw [wireRx_eq id p short, stuff_eq_self plain, shape]
  obtain ⟨F', sent', run⟩ := wireRxFramesAreAccepted id p s short idle empty
  obtain rfl : F' = F := Option.some.inj (sent'.symm.trans isWireRx)
  exact ⟨isWireRx, run⟩

/-- Settles O46: the frame is the message stuffed between its markers, with the checksum of the stuffed payload. -/
theorem stuffedSourceFramesAreCrcMismatch : Obligations.StuffedSourceFramesAreCrcMismatch := by
  intro id p F s short sent _ idPlain lenPlain chkPlain idle empty
  have shape := frame_eq sent
  generalize crc16 (frameBody id p.length (stuff Config.default p)) = chk at shape chkPlain ⊢
  have stuffed : stuff Config.default (frameBody id p.length p ++ leBytes chk.toNat) =
      frameBody id p.length (stuff Config.default p) ++ leBytes chk.toNat := by
    have head : stuff Config.default (id :: leBytes p.length) = id :: leBytes p.length :=
      stuff_eq_self (List.forall_mem_cons.2 ⟨idPlain, lenPlain⟩)
    rw [frameBody, stuff_append, stuff_append, head, stuff_eq_self chkPlain, frameBody]
  have answer := execAll_stuffed_message id p chk s idle empty short
  rw [stuffed, ← shape] at answer
  rw [answer, shape]
  simp

end Sys2Proof.Machine

/-! PROOFS. Streams with no ESCAPE and no END between the markers: `VALIDATE` gets the buffer as it stands (spec/
41_deframer.md rule R123), and one that is too long overflows (rules R113 and R124). -/

namespace Sys2Proof.Machine

theorem unstuff_of_plain {cfg : Config} {w : List Byte} (plain : ∀ b ∈ w, b ≠ cfg.escByte) :
    unstuff cfg w = (w, false) := by
  unfold unstuff
  induction w with
  | nil => rfl
  | cons b w ih =>
    obtain ⟨hb, hw⟩ := List.forall_mem_cons.1 plain
    rw [unstuffFrom_plain cfg b w hb, ih hw]

theorem noPlainEnd_of_plain {cfg : Config} {w : List Byte} (plain : ∀ b ∈ w, b ≠ cfg.escByte ∧ b ≠ cfg.endByte) :
    noPlainEnd cfg w = true := by
  unfold noPlainEnd
  induction w with
  | nil => rfl
  | cons b w ih =>
    obtain ⟨⟨notEsc, notEnd⟩, hw⟩ := List.forall_mem_cons.1 plain
    rw [noPlainEndFrom, bne_iff_ne.2 notEnd, beq_false_of_ne notEsc, Bool.true_and, ih hw]

/-- A buffer with two different bytes at its ends is those bytes and what stands between them. -/
theorem eq_markers_between {α : Type} {B : List α} {first last : α} (ne : first ≠ last) (head : B[0]? = some first)
    (tail : B.getLast? = some last) : B = first :: B.tail.dropLast ++ [last] := by
  cases B with
  | nil => cases head
  | cons a B =>
    obtain rfl : a = first := Option.some.inj head
    cases B using List.reverseRecOn with
    | nil => exact absurd (Option.some.inj tail) ne
    | append_singleton B z =>
      obtain rfl : z = last := by simpa [List.getLast?_cons] using tail
      simp

/-- Settles O48: the bytes between the markers are their own unstuffing. -/
theorem streamAgreesWithWholeBuffer : Obligations.StreamAgreesWithWholeBuffer := by
  intro B s short head tail plain idle empty
  have shape := eq_markers_between (by decide) head tail
  generalize B.tail.dropLast = w at shape plain
  have back : unstuff Config.default w = (w, false) := unstuff_of_plain fun b hb => (plain b hb).1
  have fits : w.length + 1 ≤ 1024 := by
    have long : B.length = w.length + 2 := by simp [shape]
    omega
  obtain ⟨completes, -⟩ := firstUnescapedEndCompletesTheFrame w s idle empty (noPlainEnd_of_plain plain)
    (by rw [back]; exact fits)
  rw [shape, completes (by rw [back]), back]
  simp

/-- Settles O49: a flip between the markers leaves them and the length alone, so the stream is answered what
`validate_modify` says of the whole buffer. -/
theorem singleFlippedBitOnTheChannelIsReported : Obligations.SingleFlippedBitOnTheChannelIsReported := by
  intro B id p i k s short valid _ hk low high plain idle empty
  have verdict := validate_modify (xor_twoPow_ne hk) valid i low high
  obtain ⟨lo, hi, clo, chi, shape, -⟩ := (validate_eq_valid_iff _ _ _ _).1 valid
  have kept (a : Nat) (ha : a ≠ i) : (B.modify i (· ^^^ BitVec.twoPow 8 k))[a]? = B[a]? := by
    simp [ha.symm]
  have head : (B.modify i (· ^^^ BitVec.twoPow 8 k))[0]? = some 0x7E := by
    rw [kept 0 (by omega), shape]; rfl
  have tail : (B.modify i (· ^^^ BitVec.twoPow 8 k)).getLast? = some 0x7D := by
    rw [List.getLast?_eq_getElem?, List.length_modify, kept _ (by omega), ← List.getLast?_eq_getElem?, shape]
    simp [frameImage, Config.default, List.getLast?_cons]
  rw [streamAgreesWithWholeBuffer _ s (by rwa [List.length_modify]) head tail plain idle empty, verdict,
    List.length_modify]
  rfl

/-- Settles O50: the stream unstuffs to itself and so leaves 1025 bytes, on which the guard fires. -/
theorem oversizeStreamOverflowsOnTheNextByte : Obligations.OversizeStreamOverflowsOnTheNextByte := by
  intro w b s idle full plain
  have back (k : Nat) : unstuff Config.default (w.take k) = (w.take k, false) :=
    unstuff_of_plain fun b hb => (plain b (List.mem_of_mem_take hb)).1
  have whole : unstuff Config.default w = (w, false) := unstuff_of_plain fun b hb => (plain b hb).1
  obtain ⟨stream, -⟩ := accumulatorIsTheUnstuffedStream
  have run := stream w s idle (noPlainEnd_of_plain plain) fun k hk => by
    rw [back, List.length_take]; omega
  rw [whole, full] at run
  refine ⟨⟨_, run, rfl, by simp [full], rfl⟩, ?_⟩
  rw [dfFeed_append, execAll_append _ _ _ _ run, dfFeed_cons, execAll_cons _ _ _ _ (exec_dfPush_of_pushByte
    (pushByte_overflow _ b _ (by simp) (by simp [full, Config.default])))]
  rfl

/-- In Idle, bytes other than START are dropped, each answered `None` (rule R112). -/
theorem pushAll_idle_drop (cfg : Config) (junk : List Byte) (s : State) (idle : s.st = .idle)
    (noStart : ∀ b ∈ junk, b ≠ cfg.startByte) :
    pushAll cfg junk s = { s with responses := s.responses ++ List.replicate junk.length .none } := by
  induction junk generalizing s with
  | nil => simp
  | cons b junk ih =>
    obtain ⟨hb, hjunk⟩ := List.forall_mem_cons.1 noStart
    rw [pushAll, pushByte_idle_drop cfg b s idle hb, ih (respond .none s) idle hjunk]
    simp [respond, List.replicate_succ]

/-- Settles O51: the overflow, then the bytes dropped, then the frame, each from the Idle state the one before leaves. -/
theorem freshFrameIsAcceptedAfterOverflow : Obligations.FreshFrameIsAcceptedAfterOverflow := by
  intro w junk p b id s idle empty full plain noStart short
  obtain ⟨-, overflow⟩ := oversizeStreamOverflowsOnTheNextByte w b s idle full plain
  have dropped (t : State) (ht : t.st = .idle) : execAll (dfFeed junk) t =
      .next { t with responses := t.responses ++ List.replicate junk.length .none } := by
    rw [execAll_dfFeed, pushAll_idle_drop _ junk t ht noStart]
  have fresh (t : State) := wireRxFramesAreAccepted id p t short
  obtain ⟨F, sent, -⟩ := fresh s idle empty
  have accepted (t : State) (ht : t.st = .idle) (hacc : t.acc = []) : execAll (dfFeed F) t =
      .next { t with responses := t.responses ++ List.replicate (F.length - 1) .none ++ [.valid id p] } := by
    obtain ⟨F', sent', run⟩ := fresh t ht hacc
    obtain rfl : F' = F := Option.some.inj (sent'.symm.trans sent)
    exact run
  refine ⟨F, sent, ?_⟩
  rw [dfFeed_append, dfFeed_append, List.append_assoc, execAll_append _ _ _ _ overflow,
    execAll_append _ _ _ _ (dropped _ rfl), accepted _ rfl rfl]
  generalize List.replicate 1025 Response.none = early
  simp [idle, empty, ← List.replicate_append_replicate]

end Sys2Proof.Machine

/-! PROOFS. How many bytes a reason takes (spec/42_validate.md rule R138): a frame's accumulator holds no more bytes than
were fed, and each reason is a fact about its length. -/

namespace Sys2Proof.Machine

/-- The fewest bytes fed from Idle after which a reason can be answered (rule R138); no number for the reason that no push
answers. -/
def Reason.leastBytes : Reason → Nat
  | .tooSmall => 2
  | .invalidMarkers => 0
  | .lengthMismatch => 7
  | .crcMismatch => 7
  | .bufferOverflow => 1026

/-- In a frame the accumulator holds a byte, and no more than the `n` fed. -/
def FedWithin (n : Nat) (s : State) : Prop := s.st ≠ .idle → 1 ≤ s.acc.length ∧ s.acc.length ≤ n

/-- A reason `VALIDATE` gives for an image of two bytes or more needs no more bytes than the image has. -/
theorem leastBytes_le_of_validate {cfg : Config} {image : Memory} {why : Reason} (two : 2 ≤ image.length)
    (answer : validate cfg image = .invalid why) : why.leastBytes ≤ image.length := by
  obtain ⟨-, e⟩ | ⟨h, ⟨-, e⟩ | ⟨-, -, e⟩ | ⟨-, -, -, e⟩ | ⟨-, -, -, e⟩⟩ := validate_cases cfg image <;>
    cases e.symm.trans answer
  · exact two
  · exact Nat.zero_le _
  · exact h
  · exact h

/-- A push keeps the accumulator within the bytes fed. -/
theorem FedWithin.pushByte {n : Nat} {s : State} (fed : FedWithin n s) (cfg : Config) (b : Byte) :
    FedWithin (n + 1) (pushByte cfg b s) := by
  obtain ⟨-, -, e⟩ | ⟨idle, -, e⟩ | ⟨-, -, e⟩ | ⟨st, -, e⟩ | ⟨st, -, -, e⟩ | ⟨-, -, -, -, e⟩ | ⟨st, -, -, -, e⟩ :=
    pushByte_cases cfg b s <;> rw [e] <;> intro busy
  · simp
  · exact absurd idle busy
  · exact absurd rfl busy
  · have held := fed (by simp [st])
    simp; omega
  · have held := fed (by simp [st])
    simp; omega
  · exact absurd rfl busy
  · have held := fed (by simp [st])
    simp; omega

/-- A reason a push answers needs no more bytes than were fed, this one among them. -/
theorem FedWithin.leastBytes_le {n : Nat} {s : State} (fed : FedWithin n s) {b : Byte} {why : Reason}
    (answer : (Machine.pushByte Config.default b s).responses = s.responses ++ [.invalid why]) :
    why.leastBytes ≤ n + 1 := by
  obtain ⟨busy, long, e⟩ | ⟨frame, -, e⟩ := result_of_pushByte (res := .invalid why) answer
  · obtain rfl := Result.invalid.inj e
    rw [Config.default_maxAcc] at long
    have held := fed busy
    rw [Reason.leastBytes]
    omega
  · have held := fed (by simp [frame])
    have least := leastBytes_le_of_validate (by rw [accAppend_length]; omega) e.symm
    rw [accAppend_length] at least
    omega

/-- A reason among the responses to a stream needs no more bytes than were fed. -/
theorem FedWithin.leastBytes_le_of_pushAll {n : Nat} {s : State} (fed : FedWithin n s) (bytes : List Byte)
    {rs : List Response} (run : (pushAll Config.default bytes s).responses = s.responses ++ rs) {why : Reason}
    (answered : .invalid why ∈ rs) : why.leastBytes ≤ n + bytes.length := by
  induction bytes generalizing n s rs with
  | nil =>
    obtain rfl : rs = [] := by simpa using run
    cases answered
  | cons b bytes ih =>
    obtain ⟨st, acc, r, push⟩ := pushByte_updates_from_st_acc Config.default b s.st s.acc
    have first : (Machine.pushByte Config.default b s).responses = s.responses ++ [r] := by simp [push s rfl rfl]
    obtain ⟨rest, later, -⟩ := pushAll_responses Config.default bytes (Machine.pushByte Config.default b s)
    obtain rfl : r :: rest = rs := by
      have same : s.responses ++ [r] ++ rest = s.responses ++ rs := by rw [← first, ← later]; exact run
      simpa using same
    rw [List.length_cons, ← Nat.add_assoc, Nat.add_right_comm]
    obtain rfl | answered := List.mem_cons.1 answered
    · exact Nat.le_add_right_of_le (fed.leastBytes_le first)
    · exact ih (fed.pushByte _ b) later answered

/-- From Idle a reason among the responses needs as many bytes as `leastBytes` says. -/
theorem leastBytes_le_length {bytes : List Byte} {s t : State} {rs : List Response} (idle : s.st = .idle)
    (run : execAll (dfFeed bytes) s = .next t) (answers : t.responses = s.responses ++ rs) {why : Reason}
    (answered : .invalid why ∈ rs) : why.leastBytes ≤ bytes.length := by
  obtain rfl := Host.Outcome.next.inj ((execAll_dfFeed bytes s).symm.trans run)
  have fed : FedWithin 0 s := fun busy => absurd idle busy
  simpa using fed.leastBytes_le_of_pushAll bytes answers answered

/-- A short buffer without special bytes between its markers, fed from reset, has the answer of `VALIDATE` last. -/
theorem last_response_from_reset (B : List Byte) (short : B.length ≤ 1025) (head : B[0]? = some 0x7E)
    (tail : B.getLast? = some 0x7D) (plain : ∀ b ∈ B.tail.dropLast, b ≠ 0x7C ∧ b ≠ 0x7D) {why : Reason}
    (verdict : validate Config.default B = .invalid why) :
    ∃ t, execAll (dfFeed B) State.reset = .next t ∧ t.responses.getLast? = some (.invalid why) :=
  ⟨_, streamAgreesWithWholeBuffer B State.reset short head tail plain rfl rfl, by simp [verdict]⟩

/-- The checksum of an empty message with id 1 (V6 of spec/95_test_vectors.md), by the register after each byte. -/
theorem crc16_empty_message : crc16 [0x01, 0x00, 0x00] = 0xFBAC := by
  have after1 : crc16Update Config.crcInit 0x01 = 0xF1D1 := by decide
  have after2 : crc16Update 0xF1D1 0x00 = 0x2E3E := by decide
  have after3 : crc16Update 0x2E3E 0x00 = 0xFBAC := by decide
  simp only [crc16, crcFold_cons, crcFold_nil, after1, after2, after3]

/-- Settles O52: the four stimuli by what `VALIDATE` says of them and by the overflow, the bounds by `leastBytes`. -/
theorem shortestStimuliForTheReasons : Obligations.ShortestStimuliForTheReasons := by
  have small := validate_of_small Config.default [0x7E, 0x7D] (by decide)
  have length := validate_lengthMismatch Config.default (id := 0x01) (lo := 0x05) (hi := 0x00) (p := [])
    (clo := 0x00) (chi := 0x00) (by decide)
  have crc := validate_crcMismatch Config.default (id := 0x01) (lo := 0x00) (hi := 0x00) (p := [])
    (clo := 0x00) (chi := 0x00) rfl (by rw [crc16_empty_message]; decide)
  refine ⟨?_, fun bytes s t rs idle run answers => ⟨leastBytes_le_length idle run answers,
    leastBytes_le_length idle run answers, leastBytes_le_length idle run answers,
    leastBytes_le_length idle run answers⟩⟩
  simp only [List.Forall]
  refine ⟨last_response_from_reset _ (by decide) rfl rfl (by decide) small,
    last_response_from_reset _ (by decide) rfl rfl (by decide) length,
    last_response_from_reset _ (by decide) rfl rfl (by decide) crc, ?_⟩
  obtain ⟨-, overflow⟩ := oversizeStreamOverflowsOnTheNextByte (List.replicate 1024 0x55) 0x55 State.reset rfl
    List.length_replicate fun x hx => by rw [List.eq_of_mem_replicate hx]; decide
  rw [List.cons_append, ← List.replicate_succ'] at overflow
  exact ⟨_, overflow, List.getLast?_concat⟩

end Sys2Proof.Machine

/-! PROOFS. Equivalent forms of the CRC (spec/40_crc16.md rules R95 and R97): the register over a stream of operations, the
update as a linear map and as a table, and the residue of rule R45. -/

namespace Sys2Proof.Machine

theorem byteEntry_xor (b b' : Byte) :
    ((b ^^^ b').zeroExtend 16 <<< 8 : Half) = (b.zeroExtend 16 <<< 8) ^^^ (b'.zeroExtend 16 <<< 8) := by
  rw [← BitVec.shiftLeft_xor_distrib, BitVec.zeroExtend_eq_setWidth, BitVec.setWidth_xor]

/-- Settles O26: the byte's entry and the loop are linear. -/
theorem crcUpdateIsLinear : Obligations.CrcUpdateIsLinear := by
  intro c c' b b'
  rw [crc16Update, byteEntry_xor, crc16Update, crc16Update, ← crcShifts_xor]
  congr 1
  ac_rfl

/-- As long as no 1 is shifted out, the loop is a shift. -/
theorem crcShifts_eq_shiftLeft (k : Nat) (r : Half) (h : r.toNat * 2 ^ k < 2 ^ 16) : crcShifts k r = r <<< k := by
  induction k generalizing r with
  | zero => simp [crcShifts]
  | succ k ih =>
    rw [pow_succ', ← Nat.mul_assoc] at h
    have small : r.toNat * 2 < 2 ^ 16 := Nat.lt_of_le_of_lt (Nat.le_mul_of_pos_right _ (by simp)) h
    have top : r.msb = false := by
      rw [Bool.eq_false_iff]
      intro msb
      have high := (half_msb_iff r).1 msb
      omega
    have step : crcShift r = r <<< 1 := by rw [crcShift, top]; rfl
    have twice : (r <<< 1).toNat = r.toNat * 2 := by
      rw [BitVec.toNat_shiftLeft, Nat.shiftLeft_eq, pow_one, Nat.mod_eq_of_lt small]
    rw [crcShifts, step, ih _ (by rwa [twice]), ← BitVec.shiftLeft_add, Nat.add_comm]

theorem append_toNat (hi lo : Byte) : (hi ++ lo : Half).toNat = hi.toNat * 2 ^ 8 + lo.toNat :=
  (BitVec.toNat_append hi lo).trans <| by rw [← Nat.shiftLeft_add_eq_or_of_lt lo.isLt, Nat.shiftLeft_eq]

/-- A half-word is its high byte, entered as an operand is, and its low byte. -/
theorem append_eq_byteEntry_xor (hi lo : Byte) :
    (hi ++ lo : Half) = (hi.zeroExtend 16 <<< 8) ^^^ lo.zeroExtend 16 := by
  have hlo : lo.toNat < 2 ^ 8 := lo.isLt
  have high : (hi.toNat * 2 ^ 8 ^^^ lo.toNat) / 2 ^ 8 = hi.toNat := by
    rw [Nat.xor_div_two_pow, Nat.mul_div_cancel _ (by decide), Nat.div_eq_of_lt hlo, Nat.xor_zero]
  have low : (hi.toNat * 2 ^ 8 ^^^ lo.toNat) % 2 ^ 8 = lo.toNat := by
    rw [Nat.xor_mod_two_pow, Nat.mul_mod_left, Nat.mod_eq_of_lt hlo, Nat.zero_xor]
  apply BitVec.eq_of_toNat_eq
  rw [append_toNat, BitVec.toNat_xor, byteEntry_toNat, BitVec.toNat_setWidth, Nat.mod_eq_of_lt (by omega)]
  omega

/-- The high byte of the register meets the operand, and the low byte moves up (rule R97 (b)). -/
theorem crc16Update_append (hi lo b : Byte) :
    crc16Update (hi ++ lo) b = (lo.zeroExtend 16 <<< 8) ^^^ crc16Update 0 (hi ^^^ b) := by
  have hlo : lo.toNat < 2 ^ 8 := lo.isLt
  have zero_xor (v : Half) : 0 ^^^ v = v := BitVec.zero_xor
  have up : crcShifts 8 (lo.zeroExtend 16) = lo.zeroExtend 16 <<< 8 := by
    refine crcShifts_eq_shiftLeft 8 _ ?_
    rw [BitVec.toNat_setWidth]
    omega
  rw [crc16Update, crc16Update, append_eq_byteEntry_xor, byteEntry_xor, zero_xor, ← up, ← crcShifts_xor]
  congr 1
  ac_rfl

/-- Settles O27: the table form is `crc16Update_append` at the register's two bytes, the entries are closed cases. -/
theorem crcUpdateIsTheTableForm : Obligations.CrcUpdateIsTheTableForm := by
  refine ⟨fun c b => ?_, by decide, by decide⟩
  have bytes : c.extractLsb' 8 8 ++ c.extractLsb' 0 8 = c := BitVec.extractLsb'_append_extractLsb'
  rw [← bytes]
  generalize c.extractLsb' 8 8 = hi, c.extractLsb' 0 8 = lo
  have hhi : hi.toNat < 2 ^ 8 := hi.isLt
  have hlo : lo.toNat < 2 ^ 8 := lo.isLt
  have up : (hi ++ lo : Half) <<< 8 = lo.zeroExtend 16 <<< 8 := by
    apply BitVec.eq_of_toNat_eq
    rw [BitVec.toNat_shiftLeft, append_toNat, byteEntry_toNat, Nat.shiftLeft_eq]
    omega
  have down : ((hi ++ lo : Half) >>> 8).setWidth 8 = hi := by
    apply BitVec.eq_of_toNat_eq
    rw [BitVec.toNat_setWidth, BitVec.toNat_ushiftRight, append_toNat, Nat.shiftRight_eq_div_pow]
    omega
  rw [up, down, crc16Update_append]

/-- The update gives zero exactly when the byte, as it enters, cancels the register. -/
theorem crc16Update_eq_zero_iff (c : Half) (b : Byte) : crc16Update c b = 0 ↔ c = b.zeroExtend 16 <<< 8 := by
  constructor
  · exact fun h => BitVec.xor_eq_zero_iff.1 (crcShifts_eq_zero 8 _ h)
  · rintro rfl
    rw [crc16Update, BitVec.xor_self]
    decide

/-- The register's own high byte leaves its low byte, in the high place. -/
theorem crc16Update_own_high_byte (hi lo : Byte) : crc16Update (hi ++ lo) hi = lo.zeroExtend 16 <<< 8 := by
  have zero : crc16Update 0 0 = 0 := by decide
  rw [crc16Update_append, BitVec.xor_self]
  exact (congrArg _ zero).trans BitVec.xor_zero

/-- Settles O29: high byte first, each byte cancels; low byte first, the register must be the one with its bytes swapped,
and the update is a bijection of the register. -/
theorem crcResidueNeedsTheHighByteFirst : Obligations.CrcResidueNeedsTheHighByteFirst := by
  intro bytes lo hi crc
  have two (x y : Byte) : crc16 (bytes ++ [x, y]) = crc16Update (crc16Update (hi ++ lo) x) y := by
    rw [crc]; exact crcFold_append _ _ _
  rw [two, two, crc16Update_eq_zero_iff, crc16Update_eq_zero_iff]
  refine ⟨crc16Update_own_high_byte hi lo, ?_⟩
  rw [← crc16Update_own_high_byte lo hi, (crc16Update_bijective lo).1.eq_iff, append_eq_append_iff]
  exact ⟨fun h => h.2, fun h => ⟨h.symm, h⟩⟩

theorem crcBytes_cons (i : Instr) (ops : List Instr) : crcBytes (i :: ops) = crcBytes [i] ++ crcBytes ops := by
  cases i <;> rfl

/-- An operation other than `CRC.INIT` folds its byte, if it has one, into the register. -/
theorem exec_crc {i : Instr} (notInit : i ≠ .crcInit) (s : State) :
    ∃ t, exec i s = .next t ∧ t.crc = crcFold s.crc (crcBytes [i]) := by
  cases i with
  | crcInit => exact absurd rfl notInit
  | crcByte b => exact ⟨_, exec_crcByte b s, rfl⟩
  | crcRead => exact ⟨_, exec_crcRead s, rfl⟩
  | dfPush b => exact ⟨_, exec_dfPush b s, pushByte_crc _ b s⟩
  | dfReset => exact ⟨_, exec_dfReset s, rfl⟩

/-- Operations without `CRC.INIT` fold the bytes of their `CRC.BYTE`s into the register (rule R95). -/
theorem execAll_crc {ops : List Instr} (noInit : ∀ i ∈ ops, i ≠ .crcInit) (s : State) :
    ∃ t, execAll ops s = .next t ∧ t.crc = crcFold s.crc (crcBytes ops) := by
  induction ops generalizing s with
  | nil => exact ⟨s, rfl, rfl⟩
  | cons i ops ih =>
    obtain ⟨notInit, noInit⟩ := List.forall_mem_cons.1 noInit
    obtain ⟨t, run, crc⟩ := exec_crc notInit s
    obtain ⟨u, runs, crcs⟩ := ih noInit t
    exact ⟨u, by rw [execAll_cons _ _ _ _ run, runs], by rw [crcs, crc, ← crcFold_append, ← crcBytes_cons]⟩

/-- From the initial value the register is `crc16` of those bytes, and a read then answers it. -/
theorem execAll_crc_read {ops : List Instr} (noInit : ∀ i ∈ ops, i ≠ .crcInit) (s : State)
    (init : s.crc = Config.crcInit) :
    ∃ t, execAll (ops ++ [.crcRead]) s = .next t ∧ t.crc = crc16 (crcBytes ops) ∧
      t.responses.getLast? = some (.crc (crc16 (crcBytes ops))) := by
  obtain ⟨t, run, crc⟩ := execAll_crc noInit s
  rw [init, ← crc16] at crc
  refine ⟨_, (execAll_append _ _ _ _ run).trans (execAll_cons _ _ _ _ (exec_crcRead t)), crc, ?_⟩
  rw [List.getLast?_concat, crc]

/-- Settles O25: by induction on the operations, from any register, and from the initial one by `CRC.INIT` or reset. -/
theorem streamingCrcEqualsTheFunction : Obligations.StreamingCrcEqualsTheFunction := by
  refine fun ops noInit => ⟨execAll_crc noInit, fun s => ?_, execAll_crc_read noInit State.reset rfl⟩
  rw [List.cons_append, execAll_cons _ _ _ _ (exec_crcInit s)]
  exact execAll_crc_read noInit _ rfl

end Sys2Proof.Machine

/-! PROOFS. The CRC as a polynomial division over GF(2) (spec/40_crc16.md rule R97 (c)): the shift step multiplies by x and
subtracts the generator when the power 16 comes up, so modulo the generator it is multiplication by x. -/

namespace Sys2Proof.Machine

open Polynomial

/-- The generator `x^16 + x^12 + x^5 + 1` (rule R7, with the x^16 term written). -/
noncomputable def crcGenerator : (ZMod 2)[X] := X ^ 16 + X ^ 12 + X ^ 5 + 1

/-- A register as a polynomial, bit 15 the highest power. -/
noncomputable def halfPoly (c : Half) : (ZMod 2)[X] := bitsPoly ((List.range 16).map c.getMsbD)

/-- A byte as a polynomial, bit 7 the highest power. -/
noncomputable def bytePoly (b : Byte) : (ZMod 2)[X] := bitsPoly ((List.range 8).map b.getMsbD)

@[simp] theorem bitsPoly_nil : bitsPoly [] = 0 := rfl

theorem bitsPoly_concat (bits : List Bool) (bit : Bool) :
    bitsPoly (bits ++ [bit]) = bitsPoly bits * X + if bit then 1 else 0 :=
  List.foldl_concat _ _ _ _

/-- Two bit strings side by side: the first one's powers go up by the second one's length. -/
theorem bitsPoly_append (bits bits' : List Bool) :
    bitsPoly (bits ++ bits') = bitsPoly bits * X ^ bits'.length + bitsPoly bits' := by
  induction bits' using List.reverseRecOn with
  | nil => simp
  | append_singleton bits' bit ih =>
    rw [← List.append_assoc, bitsPoly_concat, bitsPoly_concat, ih, List.length_append, List.length_singleton]
    ring

theorem bitsPoly_replicate_false (k : Nat) : bitsPoly (List.replicate k false) = 0 := by
  induction k with
  | zero => rfl
  | succ k ih => rw [List.replicate_succ', bitsPoly_concat, ih]; simp

/-- Exclusive-or, bit by bit, is addition. -/
theorem bitsPoly_map_xor {α : Type} (l : List α) (f g : α → Bool) :
    bitsPoly (l.map fun a => f a ^^ g a) = bitsPoly (l.map f) + bitsPoly (l.map g) := by
  have bit (x y : Bool) : (if (x ^^ y) then 1 else 0 : (ZMod 2)[X]) = (if x then 1 else 0) + if y then 1 else 0 := by
    cases x <;> cases y <;> simp [CharTwo.add_self_eq_zero]
  induction l using List.reverseRecOn with
  | nil => simp
  | append_singleton l a ih =>
    simp only [List.map_append, List.map_singleton, bitsPoly_concat, ih, bit]
    ring

/-- A bit string's polynomial has no power as high as the string is long. -/
theorem degree_bitsPoly_lt (bits : List Bool) : (bitsPoly bits).degree < bits.length := by
  rw [degree_lt_iff_coeff_zero]
  induction bits using List.reverseRecOn with
  | nil => simp
  | append_singleton bits bit ih =>
    intro m hm
    rw [List.length_append, List.length_singleton] at hm
    obtain ⟨m, rfl⟩ : ∃ k, m = k + 1 := ⟨m - 1, by omega⟩
    rw [bitsPoly_concat, coeff_add, coeff_mul_X, ih m (by omega)]
    split <;> simp [coeff_one]

theorem halfPoly_xor (c c' : Half) : halfPoly (c ^^^ c') = halfPoly c + halfPoly c' := by
  rw [halfPoly, halfPoly, halfPoly, ← bitsPoly_map_xor]
  congr 1
  exact List.map_congr_left fun i _ => BitVec.getMsbD_xor

/-- The polynomial the register is XORed with is the generator without its power 16. -/
theorem halfPoly_crcPoly : halfPoly Config.crcPoly = X ^ 12 + X ^ 5 + 1 := by
  have bits : (List.range 16).map Config.crcPoly.getMsbD =
      [false, false, false, true, false, false, false, false, false, false, true, false, false, false, false, true] := by
    decide
  rw [halfPoly, bits]
  simp [bitsPoly]
  ring

/-- A shift multiplies by x and drops the power 16 that comes up. -/
theorem halfPoly_mul_X (r : Half) : halfPoly r * X = (if r.msb then X ^ 16 else 0) + halfPoly (r <<< 1) := by
  have before : (List.range 16).map r.getMsbD = [r.msb] ++ (List.range 15).map fun i => r.getMsbD (i + 1) := by
    rw [List.range_succ_eq_map]; simp [BitVec.msb]
  have after : (List.range 16).map (r <<< 1).getMsbD = ((List.range 15).map fun i => r.getMsbD (i + 1)) ++ [false] := by
    rw [List.range_succ, List.map_append]
    congr 1
    · refine List.map_congr_left fun i hi => ?_
      have := List.mem_range.1 hi
      simp
    · simp
  rw [halfPoly, halfPoly, before, after, bitsPoly_append, bitsPoly_concat]
  cases r.msb with
  | false => simp [bitsPoly]
  | true => simp [bitsPoly]; ring

/-- The step of the loop, exactly: times x, and the generator added when bit 15 is set. -/
theorem halfPoly_crcShift (r : Half) :
    halfPoly (crcShift r) = halfPoly r * X + if r.msb then crcGenerator else 0 := by
  rw [crcShift_eq, halfPoly_xor, halfPoly_mul_X]
  cases r.msb
  · have zero : halfPoly 0#16 = 0 := by
      rw [halfPoly, show (List.range 16).map (0#16).getMsbD = List.replicate 16 false by decide,
        bitsPoly_replicate_false]
    simp [zero]
  · have twice : (X ^ 16 + X ^ 16 : (ZMod 2)[X]) = 0 := CharTwo.add_self_eq_zero _
    rw [if_pos rfl, if_pos rfl, if_pos rfl, halfPoly_crcPoly, crcGenerator]
    linear_combination -twice

/-- Modulo the generator the loop is multiplication by powers of x. -/
theorem mk_halfPoly_crcShifts (k : Nat) (r : Half) :
    AdjoinRoot.mk crcGenerator (halfPoly (crcShifts k r)) = AdjoinRoot.mk crcGenerator (halfPoly r * X ^ k) := by
  induction k generalizing r with
  | zero => simp [crcShifts]
  | succ k ih =>
    have once : AdjoinRoot.mk crcGenerator (halfPoly (crcShift r)) = AdjoinRoot.mk crcGenerator (halfPoly r * X) := by
      rw [halfPoly_crcShift, map_add]
      split <;> simp
    rw [crcShifts, ih, map_mul, once, ← map_mul]
    ring_nf

/-- An operand enters with its powers up by 8. -/
theorem halfPoly_byteEntry (b : Byte) : halfPoly (b.zeroExtend 16 <<< 8) = bytePoly b * X ^ 8 := by
  have bits : (List.range 16).map (b.zeroExtend 16 <<< 8 : Half).getMsbD =
      (List.range 8).map b.getMsbD ++ List.replicate 8 false := by
    rw [List.range_add (n := 8) (m := 8), List.map_append]
    congr 1
    · refine List.map_congr_left fun i hi => ?_
      have := List.mem_range.1 hi
      simp
    · rw [List.map_map]
      exact List.map_eq_replicate_iff.2 fun i _ => by simp
  rw [halfPoly, bits, bitsPoly_append, bitsPoly_replicate_false, List.length_replicate, add_zero, bytePoly]

theorem mk_halfPoly_crc16Update (c : Half) (b : Byte) :
    AdjoinRoot.mk crcGenerator (halfPoly (crc16Update c b)) =
      AdjoinRoot.mk crcGenerator (halfPoly c * X ^ 8 + bytePoly b * X ^ 16) := by
  rw [crc16Update, mk_halfPoly_crcShifts, halfPoly_xor, halfPoly_byteEntry]
  ring_nf

/-- The message as a polynomial, first byte highest. -/
noncomputable def bytesPoly (bytes : List Byte) : (ZMod 2)[X] :=
  bitsPoly (bytes.flatMap fun b => (List.range 8).map b.getMsbD)

theorem bytesPoly_cons (b : Byte) (bytes : List Byte) :
    bytesPoly (b :: bytes) = bytePoly b * X ^ (8 * bytes.length) + bytesPoly bytes := by
  rw [bytesPoly, List.flatMap_cons, bitsPoly_append, bytePoly, bytesPoly]
  simp [List.length_flatMap, Nat.mul_comm]

/-- Modulo the generator, the register after the bytes is the dividend of rule R97 (c). -/
theorem mk_halfPoly_crcFold (c : Half) (bytes : List Byte) :
    AdjoinRoot.mk crcGenerator (halfPoly (crcFold c bytes)) =
      AdjoinRoot.mk crcGenerator (halfPoly c * X ^ (8 * bytes.length) + bytesPoly bytes * X ^ 16) := by
  induction bytes generalizing c with
  | nil => simp [bytesPoly]
  | cons b bytes ih =>
    rw [crcFold_cons, ih, map_add, map_mul, mk_halfPoly_crc16Update, ← map_mul, ← map_add, bytesPoly_cons,
      List.length_cons]
    ring_nf

theorem crcGenerator_monic : crcGenerator.Monic := by
  unfold crcGenerator; monicity!

theorem degree_crcGenerator : crcGenerator.degree = 16 := by
  unfold crcGenerator; compute_degree!

/-- Settles O28: the register is congruent to the dividend, and of degree below 16 it is its own remainder. -/
theorem crcIsThePolynomialRemainder : Obligations.CrcIsThePolynomialRemainder := by
  intro c bytes
  have small : (halfPoly (crcFold c bytes)).degree < crcGenerator.degree := by
    rw [degree_crcGenerator, halfPoly]
    simpa using degree_bitsPoly_lt ((List.range 16).map (crcFold c bytes).getMsbD)
  change halfPoly (crcFold c bytes) = (halfPoly c * X ^ (8 * bytes.length) + bytesPoly bytes * X ^ 16) %ₘ crcGenerator
  rw [← modByMonic_eq_of_dvd_sub crcGenerator_monic (AdjoinRoot.mk_eq_mk.1 (mk_halfPoly_crcFold c bytes)),
    (modByMonic_eq_self_iff crcGenerator_monic).2 small]

end Sys2Proof.Machine
